-- ==== Sys2Proof/Word.lean ====
section
/-! DEFINITION. The word types of PETSND (spec/00_scope.md R6, R8). Bit 0 is the least significant bit. -/

namespace Sys2Proof

/-- An 8-bit register value or offset (R6: "Offsets and value widths are fixed at 8 bits"). -/
abbrev Byte := BitVec 8

/-- The 19-bit transaction word `T` (R60). -/
abbrev Word19 := BitVec 19

/-- A 32-bit unsigned side operand or result (R64, `RATE_W` and `FRAMES_W` of R7). -/
abbrev Word32 := BitVec 32

/-- The 16-bit shift period (R6). -/
abbrev Period := BitVec 16

/-- A 12-bit unsigned output sample, 0 to 4095 (R6). -/
abbrev Sample := BitVec 12

/-- One 16-bit signed element of the host buffer (R6, R40). -/
abbrev Elem := BitVec 16

end Sys2Proof
end

