-- ==== Sys2Proof/Syntax.lean ====
section
/-! DEFINITION. The transactions of PETSND (spec/30_encoding.md R61, R70): one constructor per mnemonic of
spec/opcode_table.json. A field is an operand that the 19-bit word carries; side operands travel beside the word
(R61) and stand in `State.side`. -/

namespace Sys2Proof

/-- One transaction, as its 19-bit word says it. -/
inductive Instr where
  /-- READ (R137). `DATA` is "don't-care for READ" (R60) and is no operand. -/
  | read (offset : Byte)
  /-- STORE.ONOFF (R132). -/
  | storeOnOff (data : Byte)
  /-- STORE.WAVEFORM (R133). -/
  | storeWaveform (data : Byte)
  /-- STORE.RATE_LO (R84). -/
  | storeRateLo (data : Byte)
  /-- STORE.RATE_HI (R85). -/
  | storeRateHi (data : Byte)
  /-- STORE.MANUAL (R136). -/
  | storeManual (data : Byte)
  /-- STORE.BAD (R131): `offset` is 5 to 255; both operands are recorded in the fault. -/
  | storeBad (offset data : Byte)
  /-- RESET (R139); side operand CLOCK. -/
  | reset
  /-- SAMPLE (R110). -/
  | sample
  /-- INIT (R140); side operands RATE and CPS. -/
  | init
  /-- CALC (R142); side operands FRAMES, OUTCH, CHIPCH, CARRY and the buffer. -/
  | calcSamples
  /-- Q.CYCLEBASED (R146). -/
  | qCycleBased
  /-- Q.CHANNELS (R147). -/
  | qChannels
  deriving DecidableEq, Repr

/-- The row's name in spec/opcode_table.json. -/
def Instr.mnemonic : Instr → String
  | .read _ => "READ"
  | .storeOnOff _ => "STORE.ONOFF"
  | .storeWaveform _ => "STORE.WAVEFORM"
  | .storeRateLo _ => "STORE.RATE_LO"
  | .storeRateHi _ => "STORE.RATE_HI"
  | .storeManual _ => "STORE.MANUAL"
  | .storeBad _ _ => "STORE.BAD"
  | .reset => "RESET"
  | .sample => "SAMPLE"
  | .init => "INIT"
  | .calcSamples => "CALC"
  | .qCycleBased => "Q.CYCLEBASED"
  | .qChannels => "Q.CHANNELS"

end Sys2Proof
end

