-- ==== Sys2Proof/WellFormed.lean ====
section
/-! DEFINITION. Which terms of `Instr` are transactions the encoding has (spec/30_encoding.md R65). The widths of the
operands are in their types; the one check left is that STORE.BAD's offset is none of the five registers'. -/

namespace Sys2Proof

/-- STORE.BAD covers offsets 5 to 255 exactly (R65, R70); every operand of the others is legal (R27). -/
def Instr.wf : Instr → Bool
  | .storeBad offset _ => decide (5 ≤ offset.toNat)
  | .read _ => true
  | .storeOnOff _ => true
  | .storeWaveform _ => true
  | .storeRateLo _ => true
  | .storeRateHi _ => true
  | .storeManual _ => true
  | .reset => true
  | .sample => true
  | .init => true
  | .calcSamples => true
  | .qCycleBased => true
  | .qChannels => true

end Sys2Proof
end

