-- ==== Sys2Proof/Decode.lean ====
section
/-! DEFINITION. The decoder (spec/30_encoding.md R60 to R70), total on all 2^19 words and rejecting the reserved ones
by name, and after it the encoder. -/

namespace Sys2Proof

/-- `T[18:16]` (R60). -/
def kindField (t : Word19) : BitVec 3 := t.extractLsb' 16 3

/-- `T[15:8]` (R60). -/
def offsetField (t : Word19) : Byte := t.extractLsb' 8 8

/-- `T[7:0]` (R60). -/
def dataField (t : Word19) : Byte := t.extractLsb' 0 8

/-- The three lines of R66, each a reason the word is reserved. -/
inductive Reject where
  /-- `KIND = 111`. -/
  | reservedKind
  /-- `KIND` in 010, 011, 100, 101 with `OFFSET != 0` or `DATA != 0`. -/
  | reservedOperand
  /-- `KIND = 110` with `OFFSET >= 2` or `DATA != 0`. -/
  | reservedQuery
  deriving DecidableEq, Repr

/-- The STORE a register offset selects (R65, R130). -/
def decodeStore (offset data : Byte) : Instr :=
  match offset.toNat with
  | 0 => .storeOnOff data
  | 1 => .storeWaveform data
  | 2 => .storeRateLo data
  | 3 => .storeRateHi data
  | 4 => .storeManual data
  | _ => .storeBad offset data

/-- A kind whose `OFFSET` and `DATA` are reserved and must be 0 (R60, R66). -/
def decodePlain (i : Instr) (offset data : Byte) : Except Reject Instr :=
  if offset = 0 ∧ data = 0 then .ok i else .error .reservedOperand

/-- The query a selector names (R62, R66). -/
def decodeQuery (offset data : Byte) : Except Reject Instr :=
  if data ≠ 0 then .error .reservedQuery
  else
    match offset.toNat with
    | 0 => .ok .qCycleBased
    | 1 => .ok .qChannels
    | _ => .error .reservedQuery

/-- The transaction a word stands for (R61, R65, R70), or the reason it is reserved (R66). -/
def decode (t : Word19) : Except Reject Instr :=
  match (kindField t).toNat with
  | 0 => .ok (.read (offsetField t))
  | 1 => .ok (decodeStore (offsetField t) (dataField t))
  | 2 => decodePlain .reset (offsetField t) (dataField t)
  | 3 => decodePlain .sample (offsetField t) (dataField t)
  | 4 => decodePlain .init (offsetField t) (dataField t)
  | 5 => decodePlain .calcSamples (offsetField t) (dataField t)
  | 6 => decodeQuery (offsetField t) (dataField t)
  | _ => .error .reservedKind

/-- `KIND`, `OFFSET` and `DATA` laid out as R60's table has them. -/
def packWord (kind : BitVec 3) (offset data : Byte) : Word19 := kind ++ offset ++ data

/-- The word of a transaction (R61, R62, R70). READ's don't-care `DATA` is written 0 (DESIGN CHOICE, safe: log 12). -/
def encode : Instr → Word19
  | .read offset => packWord 0 offset 0
  | .storeOnOff data => packWord 1 0 data
  | .storeWaveform data => packWord 1 1 data
  | .storeRateLo data => packWord 1 2 data
  | .storeRateHi data => packWord 1 3 data
  | .storeManual data => packWord 1 4 data
  | .storeBad offset data => packWord 1 offset data
  | .reset => packWord 2 0 0
  | .sample => packWord 3 0 0
  | .init => packWord 4 0 0
  | .calcSamples => packWord 5 0 0
  | .qCycleBased => packWord 6 0 0
  | .qChannels => packWord 6 1 0

/-- One row of R70's opcode map: a word is the row's when its bits under `mask` are `bits`. -/
structure Row where
  mnemonic : String
  bits : Word19
  mask : Word19
  deriving DecidableEq, Repr

/-- A word is one of the row's words. -/
def Row.covers (r : Row) (t : Word19) : Bool := (t &&& r.mask) == r.bits

/-- The seven STORE.BAD rows, whose offset patterns R70 lists; together they cover offsets 5 to 255. -/
def storeBadRows : List Row :=
  [⟨"STORE.BAD", 0x10500, 0x7FF00⟩, ⟨"STORE.BAD", 0x10600, 0x7FE00⟩, ⟨"STORE.BAD", 0x10800, 0x7F800⟩,
   ⟨"STORE.BAD", 0x11000, 0x7F000⟩, ⟨"STORE.BAD", 0x12000, 0x7E000⟩, ⟨"STORE.BAD", 0x14000, 0x7C000⟩,
   ⟨"STORE.BAD", 0x18000, 0x78000⟩]

/-- The 19 rows of R70 and spec/opcode_table.json. -/
def opcodeTable : List Row :=
  [⟨"READ", 0x00000, 0x70000⟩, ⟨"STORE.ONOFF", 0x10000, 0x7FF00⟩, ⟨"STORE.WAVEFORM", 0x10100, 0x7FF00⟩,
   ⟨"STORE.RATE_LO", 0x10200, 0x7FF00⟩, ⟨"STORE.RATE_HI", 0x10300, 0x7FF00⟩,
   ⟨"STORE.MANUAL", 0x10400, 0x7FF00⟩] ++ storeBadRows ++
  [⟨"RESET", 0x20000, 0x7FFFF⟩, ⟨"SAMPLE", 0x30000, 0x7FFFF⟩, ⟨"INIT", 0x40000, 0x7FFFF⟩,
   ⟨"CALC", 0x50000, 0x7FFFF⟩, ⟨"Q.CYCLEBASED", 0x60000, 0x7FFFF⟩, ⟨"Q.CHANNELS", 0x60100, 0x7FFFF⟩]

/-- The transaction word that `nbits` bits of a number give: its low 19 bits, when the rest are 0. A number that is no
19-bit word gives a reserved word, so that the decoder refuses it (DESIGN CHOICE, safe: log 13). -/
def tableWord (nbits w : Nat) : Word19 :=
  if w % 2 ^ nbits < 2 ^ 19 then BitVec.ofNat 19 (w % 2 ^ nbits) else 0x70000

/-- What the decoder reads from a word numbered as spec/opcode_table.json numbers it. -/
def decodeTableWord (nbits w : Nat) : Option Instr :=
  match decode (tableWord nbits w) with
  | .ok i => some i
  | .error _ => none

end Sys2Proof
end

