-- ==== Sys2Proof/Config.lean ====
section
/-! DEFINITION. The implementation parameters of spec/00_scope.md R7, their values for this hardware, and the one
value the spec leaves OPEN (`MIX`). -/

namespace Sys2Proof

/-- `ARITH` (R7, R12): binary64, or exact rationals, the other instance R12 admits. -/
inductive Arith where
  | binary64
  | exact
  deriving DecidableEq, Repr

/-- `ZERO_PERIOD_POLICY` (R7, R88). -/
inductive ZeroPeriodPolicy where
  | silent
  | ignoreWrite
  | fault
  deriving DecidableEq, Repr

/-- `DS_ROUND` (R7, R13). -/
inductive DsRound where
  | nearestTiesAway
  | truncate
  deriving DecidableEq, Repr

/-- The parameters the meanings are written over. -/
structure Params where
  arith : Arith
  zeroPeriod : ZeroPeriodPolicy
  dsRound : DsRound
  deriving DecidableEq, Repr

/-- The values R7 gives this hardware (D2, D5, D6). DEDUCED, safe: log 6. -/
def Config.hw : Params :=
  Params.mk .binary64 .silent .nearestTiesAway

/-- `MIX(existing, new)`, the host's combinator (R144): OPEN in R7, so a FREE VALUE with no body. The spec "assumes
nothing about it beyond being a total function of its two arguments". DESIGN CHOICE, safe: log 5. -/
opaque Config.mix : Elem → Sample → Elem

end Sys2Proof
end

