-- ==== Sys2Proof/Machine/Arith.lean ====
section
/-! DEFINITION. The arithmetic primitives of spec/00_scope.md R11 to R13 and R118, on the exact rationals that binary64
values denote. Each binary64 operation is the exact operation followed by one rounding to nearest, ties to even.
The exact operations are written on numerator and denominator so that the kernel can run them on numerals;
Laws/Arith.lean shows that they are `+`, `-`, `*` and `/`. -/

namespace Sys2Proof.Machine

open Sys2Proof

/-- The exact sum. -/
def ratAdd (a b : ℚ) : ℚ := mkRat (a.num * b.den + b.num * a.den) (a.den * b.den)

/-- The exact difference. -/
def ratSub (a b : ℚ) : ℚ := mkRat (a.num * b.den - b.num * a.den) (a.den * b.den)

/-- The exact product. -/
def ratMul (a b : ℚ) : ℚ := mkRat (a.num * b.num) (a.den * b.den)

/-- The exact quotient; 0 when the divisor is 0, which no transaction divides by (R87, R114). -/
def ratDiv (a b : ℚ) : ℚ := Rat.divInt (a.num * b.den) (a.den * b.num)

/-- Two to an integer power. -/
def pow2 : ℤ → ℚ
  | .ofNat n => ((2 ^ n : ℕ) : ℚ)
  | .negSucc n => mkRat 1 (2 ^ (n + 1))

/-- The exponent `k` with `2^k <= q < 2^(k+1)`, for a positive `q`. -/
def ilog2 (q : ℚ) : ℤ :=
  let k : ℤ := (Nat.log2 q.num.natAbs : ℤ) - (Nat.log2 q.den : ℤ)
  if q < pow2 k then k - 1 else k

/-- The nearest integer, ties to even. -/
def roundEven (q : ℚ) : ℤ :=
  let f := ⌊q⌋
  let r := ratSub q f
  let t := ratAdd r r
  if t < 1 then f else if 1 < t then f + 1 else if f % 2 = 0 then f else f + 1

/-- The unit in the last place of a binary64 value of the magnitude of `q` (53 significant bits, exponent at least
-1074). -/
def ulp64 (q : ℚ) : ℚ := pow2 (max (ilog2 (if q < 0 then -q else q) - 52) (-1074))

/-- Round to nearest binary64 value, ties to even (R11). The exponent is not bounded above: no value of this block
reaches 2^46 (DEDUCED, unsafe outside the invariant: log 4). -/
def round64 (q : ℚ) : ℚ :=
  if q = 0 then 0 else ratMul (roundEven (ratDiv q (ulp64 q))) (ulp64 q)

/-- `q` is a finite binary64 value: 53 significant bits over a power of two not below `2^-1074`. -/
def IsBinary64 (q : ℚ) : Prop :=
  ∃ m e : ℤ, |m| < 2 ^ 53 ∧ -1074 ≤ e ∧ q = m * (2 : ℚ) ^ e

/-- The one rounding of each operation under `ARITH` (R11; none for the exact instance, R12). -/
def arithRound : Arith → ℚ → ℚ
  | .binary64, q => round64 q
  | .exact, q => q

/-- `a +. b` (R11). -/
def fadd (A : Arith) (a b : ℚ) : ℚ := arithRound A (ratAdd a b)

/-- `a -. b` (R11). -/
def fsub (A : Arith) (a b : ℚ) : ℚ := arithRound A (ratSub a b)

/-- `a *. b` (R11). -/
def fmul (A : Arith) (a b : ℚ) : ℚ := arithRound A (ratMul a b)

/-- `a /. b` (R11). -/
def fdiv (A : Arith) (a b : ℚ) : ℚ := arithRound A (ratDiv a b)

/-- `toF(n)`: exact, since every integer the block converts is below 2^53 (R11). -/
def toF (n : ℤ) : ℚ := n

/-- `fmod8(x) = x - 8*floor(x/8)`, computed exactly (R11, R118). -/
def fmod8 (x : ℚ) : ℚ := ratSub x (toF (8 * ⌊ratDiv x 8⌋))

/-- The integer `DS_ROUND` makes of the box-filter value (R13). -/
def roundOut (d : DsRound) (r : ℚ) : ℤ :=
  match d with
  | .truncate => ⌊r⌋
  | .nearestTiesAway =>
    let frac := ratSub r ⌊r⌋
    if ratAdd frac frac < 1 then ⌊r⌋ else ⌊r⌋ + 1

/-- `clamp12(n) = min(max(n, 0), 4095)` (R13). -/
def clamp12 (n : ℤ) : Sample := BitVec.ofNat 12 (min (max n 0) 4095).toNat

end Sys2Proof.Machine
end

