-- ==== Sys2Proof/Machine/State.lean ====
section
/-! DEFINITION. What the machine holds (spec/10_state.md R20, spec/30_encoding.md R61, spec/20_memory.md R40), how a
step can stop, and the state right after reset, which on this block is the state before INIT. -/

namespace Sys2Proof.Machine

open Sys2Proof

/-- The `fault` field's enumeration (R20): the sticky cause with its recorded operands. -/
inductive FaultCause where
  | none
  /-- R161: STORE at an offset of 5 to 255. -/
  | badOffset (offset data : Byte)
  /-- R162: a sample drawn while `bsValid` is false under `ZERO_PERIOD_POLICY = FAULT`. -/
  | zeroPeriod
  deriving DecidableEq, Repr

/-- The block state `S`: "exactly the fields below and no others" (R20). A binary64 field is held as the exact rational
number it denotes (DEDUCED, unsafe outside the invariant: log 4). -/
structure ChannelState where
  enabled : Bool
  manualLevel : Bool
  waveformByte : Byte
  rateLo : Byte
  shiftPeriod : Period
  bitsPerSample : ℚ
  bsValid : Bool
  bitCursor : ℚ
  sampleRate : Word32
  cyclesPerSecond : Word32
  initDone : Bool
  fault : FaultCause
  deriving DecidableEq, Repr

/-- The host sample buffer `Buf`: its elements in index order, its length the buffer's (R40, R43; log 11). -/
abbrev HostBuffer := List Elem

/-- The "result out" column of R61: what the last transaction returned (DESIGN CHOICE, safe: log 9). -/
inductive Result where
  | none
  | rdata (v : Byte)
  | sample (v : Sample)
  | ok (v : BitVec 1)
  | produced (v : Word32)
  | qresult (v : Word32)
  deriving DecidableEq, Repr

/-- The "side operands in" column of R61, as ports: each has some value always, and a transaction reads those its kind
names. `CLOCK` (width OPEN) and `CARRY` (no width given) are read by no rule (R64; DESIGN CHOICE, safe: log 7). -/
structure SideOperands where
  clock : Nat
  rate : Word32
  cps : Word32
  frames : Word32
  outch : Word32
  chipch : Word32
  carry : Nat
  deriving DecidableEq, Repr

/-- The two agents of R50. The block does not check which of them issued a transaction (R169). -/
inductive Agent where
  | upstream
  | downstream
  deriving DecidableEq, Repr

/-- One issued transaction: its word, its side operands, and the buffer if the host hands one over with it (R53: "The
host may change `Buf` freely between CALCs"; `none` leaves the buffer as it stands). -/
structure Request where
  agent : Agent
  word : Word19
  side : SideOperands
  buf : Option HostBuffer
  deriving DecidableEq, Repr

/-- The machine: the block's record, the side operands of the transaction being taken, the host buffer, the result
ports, and the transactions issued and not yet taken, in the total order of R50 (log 8). -/
structure State where
  chan : ChannelState
  side : SideOperands
  buf : HostBuffer
  result : Result
  pending : List Request
  deriving DecidableEq, Repr

/-- How a step stops for good. -/
inductive Fault where
  /-- Raised by every step of a faulted block, whatever is pending: "The faulted state is terminal: no later
  transaction of either agent has a step" (R166, R167). Safe: the spec's own stop. -/
  | halted (cause : FaultCause)
  deriving DecidableEq, Repr

/-- Why the model gives a transaction no meaning (R163). -/
inductive Refusal where
  /-- An arm of `exec` without a meaning. Raised by none here. Safe. -/
  | notModelled (mnemonic : String)
  /-- R183, code 16: any transaction but INIT while `initDone` is false. Raised by every meaning but INIT's, and by the
  step on a reserved word. Safe: the spec's own refusal. -/
  | preInit
  /-- R66, code 17: a reserved word. Raised by the step. Safe: the spec's own refusal. -/
  | reservedEncoding
  /-- R140, code 18: INIT with RATE = 0 or CPS = 0. Safe: the spec's own refusal. -/
  | badInitArg
  /-- R143, code 19: CALC with OUTCH = 0 or a short buffer. Safe: the spec's own refusal. -/
  | badCalcArg
  deriving DecidableEq, Repr

/-- The codes of R161 and R162 (D20). -/
def FaultCause.code : FaultCause → Option Nat
  | .none => Option.none
  | .badOffset _ _ => some 1
  | .zeroPeriod => some 2

/-- The codes of R163 (D20). -/
def Refusal.code : Refusal → Option Nat
  | .notModelled _ => none
  | .preInit => some 16
  | .reservedEncoding => some 17
  | .badInitArg => some 18
  | .badCalcArg => some 19

/-- How one transaction ends (R160). -/
abbrev Outcome := Host.Outcome State Fault Refusal

/-- The block before INIT: `initDone = false` and `fault = NONE` are the spec's (R35, R180); every other value is a
DESIGN CHOICE, unsafe: log 1. -/
def ChannelState.reset : ChannelState where
  enabled := false
  manualLevel := false
  waveformByte := 0
  rateLo := 0
  shiftPeriod := 0
  bitsPerSample := 0
  bsValid := false
  bitCursor := 0
  sampleRate := 0
  cyclesPerSecond := 0
  initDone := false
  fault := .none

/-- Side operands all 0 (DESIGN CHOICE, unsafe: log 1). -/
def SideOperands.zero : SideOperands where
  clock := 0
  rate := 0
  cps := 0
  frames := 0
  outch := 0
  chipch := 0
  carry := 0

/-- The machine right after reset: the block before INIT, with no transaction issued (R180; log 1). -/
def State.reset : State where
  chan := .reset
  side := .zero
  buf := []
  result := .none
  pending := []

end Sys2Proof.Machine
end

