-- ==== Sys2Proof/Machine/Ops.lean ====
section
/-! DEFINITION. The named operations over the machine's state: field writes (`S.f <- v`, spec/00_scope.md R10), the host
buffer's elements, taking and issuing a transaction, returning a result, the checks every transaction makes first
(spec/60_exceptions.md R165), and fault entry (R166). There is no return from a fault (R167). -/

namespace Sys2Proof.Machine

open Sys2Proof

/-! Field writes of the block's record. -/

def ChannelState.setEnabled (c : ChannelState) (v : Bool) : ChannelState := { c with enabled := v }

def ChannelState.setManualLevel (c : ChannelState) (v : Bool) : ChannelState := { c with manualLevel := v }

def ChannelState.setWaveformByte (c : ChannelState) (v : Byte) : ChannelState := { c with waveformByte := v }

def ChannelState.setRateLo (c : ChannelState) (v : Byte) : ChannelState := { c with rateLo := v }

def ChannelState.setShiftPeriod (c : ChannelState) (v : Period) : ChannelState := { c with shiftPeriod := v }

/-- The two fields RECOMPUTE writes (R82, R87). -/
def ChannelState.setRate (c : ChannelState) (bs : ℚ) (valid : Bool) : ChannelState :=
  { c with bitsPerSample := bs, bsValid := valid }

def ChannelState.setBitCursor (c : ChannelState) (v : ℚ) : ChannelState := { c with bitCursor := v }

def ChannelState.setFault (c : ChannelState) (v : FaultCause) : ChannelState := { c with fault := v }

/-! Field writes of the machine. -/

def State.setChan (s : State) (c : ChannelState) : State := { s with chan := c }

def State.setBuf (s : State) (b : HostBuffer) : State := { s with buf := b }

/-- A transaction returns its result on the result ports (R61). -/
def State.respond (s : State) (r : Result) : State := { s with result := r }

/-! The host buffer (R10, R40, R43): whole elements by index. -/

/-- `Buf[k]`. CALC reads no index at or above the length (R143). -/
def bufRead (b : HostBuffer) (k : Nat) : Elem := b.getD k 0

/-- `Buf[k] <- v`. -/
def bufWrite (b : HostBuffer) (k : Nat) (v : Elem) : HostBuffer := b.set k v

/-- `Buf[k] <- MIX(Buf[k], v)` (R144). -/
def mixAt (b : HostBuffer) (k : Nat) (v : Sample) : HostBuffer := bufWrite b k (Config.mix (bufRead b k) v)

/-- The element of channel `c` of frame `f` (R43). -/
def frameIndex (outch f c : Nat) : Nat := f * outch + c

/-- `for c in 0 .. n - 1: Buf[f*OUTCH + c] <- MIX(Buf[f*OUTCH + c], v)` (R142, R144). -/
def fanOut (b : HostBuffer) (outch f : Nat) (v : Sample) : Nat → HostBuffer
  | 0 => b
  | n + 1 => mixAt (fanOut b outch f v n) (frameIndex outch f n) v

/-! Issuing and taking a transaction (R50). -/

/-- An agent issues a transaction: it comes after every transaction issued before it. -/
def State.issue (s : State) (r : Request) : State := { s with pending := s.pending ++ [r] }

/-- The block takes the first pending transaction `r`, leaving `rest`: its side operands are on the ports, and the
buffer it was given, if any, is the buffer. -/
def State.accept (s : State) (r : Request) (rest : List Request) : State :=
  { s with side := r.side, buf := r.buf.getD s.buf, pending := rest }

/-! The checks of R165 that come before a transaction's own. -/

/-- A faulted block gives no transaction a step (R166, R167). -/
def State.whenRunning (s : State) (k : Outcome) : Outcome :=
  match s.chan.fault with
  | .none => k
  | .badOffset offset data => .fault (.halted (.badOffset offset data))
  | .zeroPeriod => .fault (.halted .zeroPeriod)

/-- Every transaction but INIT is refused before INIT (R165 check 1, R183). -/
def State.whenReady (s : State) (k : Outcome) : Outcome :=
  s.whenRunning (if s.chan.initDone then k else .refused .preInit)

/-- A reserved word is refused, after the check for INIT (R66, R165). -/
def State.refuseReserved (s : State) : Outcome := s.whenReady (.refused .reservedEncoding)

/-- `raise Fault(c)`: `fault <- c`, no other field and no buffer element changes, and no result is returned (R166). -/
def State.raiseFault (s : State) (c : FaultCause) : State :=
  (s.setChan (s.chan.setFault c)).respond .none

end Sys2Proof.Machine
end

