-- ==== Sys2Proof/Machine/Sampler.lean ====
section
/-! DEFINITION. The ShiftRegisterSampler (spec/41_sampler.md): the two modes, the cursor advance and SAMPLE. -/

namespace Sys2Proof.Machine

open Sys2Proof

/-- `slotBit(w, i) = w[7 - (i mod 8)]` (R9): slot 0 is the most significant bit. -/
def slotBit (w : Byte) (i : ℤ) : Bool := w.getLsbD (7 - (i % 8).toNat)

/-- How many of the `n` slots from `lo` on are set. -/
def countFrom (w : Byte) (lo : ℤ) : Nat → Nat
  | 0 => 0
  | n + 1 => countFrom w lo n + (slotBit w (lo + n)).toNat

/-- `COUNTSET(w, lo, hi)` by R113's closed form, with `popcount(w)` counted over the 8 slots. -/
def countSet (w : Byte) (lo hi : ℤ) : Nat :=
  let len := (hi - lo).toNat
  len / 8 * countFrom w 0 8 + countFrom w lo (len % 8)

/-- The two levels of a slot or of the manual line: 4095 or 0 (R111, R119). -/
def levelOf (b : Bool) : Sample := if b then 4095 else 0

/-- EXACTSAMPLE (R111): the slot that holds the window's start decides. -/
def exactSample (b : ℚ) (w : Byte) : Sample := levelOf (slotBit w ⌊b⌋)

/-- The count with partials `a` of R112: the whole slots, then the partial slot at the start, then the one at the
end, each addition one operation, in this order. -/
def boxCount (A : Arith) (s e : ℚ) (w : Byte) : ℚ :=
  let sf := ⌊s⌋
  let sc := sf + 1
  let ef := ⌊e⌋
  let n := toF (countSet w sc ef)
  let a := if slotBit w sf then fadd A n (fsub A (toF sc) s) else n
  if slotBit w ef then fadd A a (fsub A e (toF ef)) else a

/-- The value `r` of R112 before rounding. -/
def boxRatio (A : Arith) (s e : ℚ) (w : Byte) : ℚ :=
  fdiv A (fmul A (boxCount A s e w) 4095) (fsub A e s)

/-- BOXSAMPLE (R112). -/
def boxSample (p : Params) (s e : ℚ) (w : Byte) : Sample := clamp12 (roundOut p.dsRound (boxRatio p.arith s e w))

/-- The sample of a record whose rate is valid (R110): the mode test, the manual level and the disabled level. -/
def sampleValue (p : Params) (c : ChannelState) : Sample :=
  if c.enabled then
    if 1 < c.bitsPerSample then
      boxSample p c.bitCursor (fadd p.arith c.bitCursor c.bitsPerSample) c.waveformByte
    else exactSample c.bitCursor c.waveformByte
  else levelOf c.manualLevel

/-- The cursor after a sample (R117). -/
def nextCursor (p : Params) (c : ChannelState) : ℚ := fmod8 (fadd p.arith c.bitCursor c.bitsPerSample)

/-- The sample drawn while `bsValid` is false and no fault is raised: the shift path is silent (R88, R110). -/
def silentValue (c : ChannelState) : Sample := levelOf (!c.enabled && c.manualLevel)

/-- One call of the sampler (R110): the sample and the record after it, or the cause of a fault. -/
def sampleFrame (p : Params) (c : ChannelState) : Except FaultCause (Sample × ChannelState) :=
  if c.bsValid then .ok (sampleValue p c, c.setBitCursor (nextCursor p c))
  else
    match p.zeroPeriod with
    | .fault => .error .zeroPeriod
    | .silent => .ok (silentValue c, c)
    | .ignoreWrite => .ok (silentValue c, c)

/-- SAMPLE under any parameters (R110). -/
def sampleUnder (p : Params) (s : State) : Outcome :=
  s.whenReady
    (match sampleFrame p s.chan with
    | .ok (v, c) => .next ((s.setChan c).respond (.sample v))
    | .error cause => .next (s.raiseFault cause))

/-- SAMPLE (R110), with this hardware's parameters (R7). -/
def execSample (s : State) : Outcome := sampleUnder Config.hw s

end Sys2Proof.Machine
end

