-- ==== Sys2Proof/Machine/Flags.lean ====
section
/-! DEFINITION. The flags (spec/10_state.md R24 to R26): what the boolean registers make of a byte, and `bsValid`. -/

namespace Sys2Proof.Machine

open Sys2Proof

/-- ONOFF and MANUAL test `DATA != 0` (R63, R132, R136). -/
def flagOf (data : Byte) : Bool := decide (data ≠ 0)

/-- `shiftPeriod * sampleRate`, an exact integer (R86). -/
def rateProduct (period : Period) (rate : Word32) : Nat := period.toNat * rate.toNat

/-- `bsValid <- (shiftPeriod * sampleRate != 0)` (R26). -/
def bsValidOf (period : Period) (rate : Word32) : Bool := decide (rateProduct period rate ≠ 0)

end Sys2Proof.Machine
end

