-- ==== Sys2Proof/Machine/Operands.lean ====
section
/-! DEFINITION. How operands are read (spec/30_encoding.md R63, R64; spec/20_memory.md R41) and the argument checks of
INIT and CALC (spec/42_adapter.md R140, R143). No operand is sign-extended, scaled or shifted. -/

namespace Sys2Proof.Machine

open Sys2Proof

/-- `{hi, lo}`: the RATE_HI data is the high byte and the latch the low byte (R41, R85). -/
def periodOf (hi lo : Byte) : Period := hi ++ lo

/-- INIT's operands are each at least 1 (R31, R140). -/
def initArgsOk (x : SideOperands) : Bool := decide (x.rate ≠ 0 ∧ x.cps ≠ 0)

/-- At least one output channel, and a buffer of at least FRAMES * OUTCH elements (R143). -/
def calcArgsOk (x : SideOperands) (b : HostBuffer) : Bool :=
  decide (x.outch ≠ 0 ∧ x.frames.toNat * x.outch.toNat ≤ b.length)

end Sys2Proof.Machine
end

