-- ==== Sys2Proof/Machine/WaveformClock.lean ====
section
/-! DEFINITION. The WaveformClock (spec/40_waveform_clock.md): RECOMPUTE, STORE.RATE_LO and STORE.RATE_HI. -/

namespace Sys2Proof.Machine

open Sys2Proof

/-- The rate RECOMPUTE writes: one division of the exact operands, or 0.0 for a zero product (R80, R86, R87). -/
def rateOf (A : Arith) (period : Period) (rate cps : Word32) : ℚ :=
  if bsValidOf period rate then fdiv A (toF cps.toNat) (toF (rateProduct period rate)) else 0

/-- RECOMPUTE (R87). It never divides by zero. -/
def recompute (A : Arith) (c : ChannelState) : ChannelState :=
  c.setRate (rateOf A c.shiftPeriod c.sampleRate c.cyclesPerSecond) (bsValidOf c.shiftPeriod c.sampleRate)

/-- RATE_HI's effect on the record, under any policy (R85, R88). -/
def writeRateHi (p : Params) (data : Byte) (c : ChannelState) : ChannelState :=
  if periodOf data c.rateLo = 0 ∧ p.zeroPeriod = .ignoreWrite then c
  else recompute p.arith (c.setShiftPeriod (periodOf data c.rateLo))

/-- STORE.RATE_HI under any parameters (R85). -/
def storeRateHiUnder (p : Params) (data : Byte) (s : State) : Outcome :=
  s.whenReady (.next ((s.setChan (writeRateHi p data s.chan)).respond .none))

/-- STORE.RATE_LO (R84): the latch only. -/
def execStoreRateLo (data : Byte) (s : State) : Outcome :=
  s.whenReady (.next ((s.setChan (s.chan.setRateLo data)).respond .none))

/-- STORE.RATE_HI (R85), with this hardware's parameters (R7). -/
def execStoreRateHi (data : Byte) (s : State) : Outcome := storeRateHiUnder Config.hw data s

end Sys2Proof.Machine
end

