-- ==== Sys2Proof/Machine/Adapter.lean ====
section
/-! DEFINITION. The SoundChipAdapter (spec/42_adapter.md): the stores that are not rate registers, READ, RESET, INIT, CALC
and the two queries. -/

namespace Sys2Proof.Machine

open Sys2Proof

/-- READ (R137): 0 at every offset, no state written. -/
def execRead (_offset : Byte) (s : State) : Outcome := s.whenReady (.next (s.respond (.rdata 0)))

/-- STORE.ONOFF (R132). -/
def execStoreOnOff (data : Byte) (s : State) : Outcome :=
  s.whenReady (.next ((s.setChan (s.chan.setEnabled (flagOf data))).respond .none))

/-- `bitCursor -. toF(floor(bitCursor))` (R133, R134): the cursor keeps its fraction. -/
def cutCursor (A : Arith) (b : ℚ) : ℚ := fsub A b (toF ⌊b⌋)

/-- WAVEFORM's effect on the record (R133). -/
def writeWaveform (A : Arith) (data : Byte) (c : ChannelState) : ChannelState :=
  (c.setWaveformByte data).setBitCursor (cutCursor A c.bitCursor)

/-- STORE.WAVEFORM (R133). -/
def execStoreWaveform (data : Byte) (s : State) : Outcome :=
  s.whenReady (.next ((s.setChan (writeWaveform Config.hw.arith data s.chan)).respond .none))

/-- STORE.MANUAL (R136). -/
def execStoreManual (data : Byte) (s : State) : Outcome :=
  s.whenReady (.next ((s.setChan (s.chan.setManualLevel (flagOf data))).respond .none))

/-- STORE.BAD (R131): it always raises `BAD_OFFSET(OFFSET, DATA)`, which writes `fault` only (R161, R166). -/
def execStoreBad (offset data : Byte) (s : State) : Outcome :=
  s.whenReady (.next (s.raiseFault (.badOffset offset data)))

/-- RESET (R139): `enabled` only; CLOCK is ignored. -/
def execReset (s : State) : Outcome :=
  s.whenReady (.next ((s.setChan (s.chan.setEnabled false)).respond .none))

/-- INIT's writes (R140): every field but `fault`. -/
def initialise (A : Arith) (rate cps : Word32) (c : ChannelState) : ChannelState :=
  recompute A
    { c with
      sampleRate := rate
      cyclesPerSecond := cps
      enabled := false
      manualLevel := false
      waveformByte := 0x00
      rateLo := 0x20
      shiftPeriod := 32
      bitCursor := 0
      initDone := true }

/-- INIT (R140, R141): the one transaction that needs no earlier INIT (R183). -/
def execInit (s : State) : Outcome :=
  s.whenRunning
    (if initArgsOk s.side then
      .next ((s.setChan (initialise Config.hw.arith s.side.rate s.side.cps s.chan)).respond (.ok 1))
    else .refused .badInitArg)

/-- CALC's loop over frames `f`, `f+1`, … (R142): a sample, then its mix into every channel of the frame. -/
def calcFrames (p : Params) (outch : Nat) :
    Nat → Nat → ChannelState → HostBuffer → Except FaultCause (ChannelState × HostBuffer)
  | 0, _, c, b => .ok (c, b)
  | n + 1, f, c, b =>
    match sampleFrame p c with
    | .error cause => .error cause
    | .ok (v, c') => calcFrames p outch n (f + 1) c' (fanOut b outch f v outch)

/-- CALC under any parameters (R142 to R145): CHIPCH and CARRY are read by no rule. -/
def calcUnder (p : Params) (s : State) : Outcome :=
  s.whenReady
    (if calcArgsOk s.side s.buf then
      match calcFrames p s.side.outch.toNat s.side.frames.toNat 0 s.chan s.buf with
      | .ok (c, b) => .next (((s.setChan c).setBuf b).respond (.produced s.side.frames))
      | .error cause => .next (s.raiseFault cause)
    else .refused .badCalcArg)

/-- CALC (R142), with this hardware's parameters (R7). -/
def execCalc (s : State) : Outcome := calcUnder Config.hw s

/-- Q.CYCLEBASED (R146). -/
def execQCycleBased (s : State) : Outcome := s.whenReady (.next (s.respond (.qresult 0)))

/-- Q.CHANNELS (R147). -/
def execQChannels (s : State) : Outcome := s.whenReady (.next (s.respond (.qresult 1)))

end Sys2Proof.Machine
end

