-- ==== Sys2Proof/Machine/Boot.lean ====
section
/-! DEFINITION. What `State.withFetchWord` (Machine/Step.lean) needs to present one word to the block as the next transaction:
the boot step that must come first (spec/70_reset_and_hazards.md R183, R184) and side operands for it. It stands for
the two agents, outside the block; no meaning uses it (log 10). -/

namespace Sys2Proof.Machine

open Sys2Proof

/-- Side operands for a presented word: R140's example INIT 44100, 1000000 and a CALC of one frame to one channel
(DESIGN CHOICE, safe: log 10). -/
def SideOperands.presented : SideOperands where
  clock := 0
  rate := 44100
  cps := 1000000
  frames := 1
  outch := 1
  chipch := 1
  carry := 0

/-- The agent that issues a transaction of this kind by the source's contract (R50, R169). -/
def issuerOf : Except Reject Instr → Agent
  | .ok .sample => .downstream
  | .ok .init => .downstream
  | .ok .calcSamples => .downstream
  | .ok .qCycleBased => .downstream
  | .ok .qChannels => .downstream
  | _ => .upstream

/-- The buffer handed over with a presented word: one zero element for CALC, none for any other word. -/
def presentedBuffer : Except Reject Instr → Option HostBuffer
  | .ok .calcSamples => some [0]
  | _ => none

/-- The request that presents a word. -/
def presentWord (t : Word19) : Request where
  agent := issuerOf (decode t)
  word := t
  side := .presented
  buf := presentedBuffer (decode t)

/-- R184 step 1, done for a block that has had no INIT, unless the presented word is INIT's own. -/
def bootFor (t : Word19) (c : ChannelState) : ChannelState :=
  if c.initDone = true ∨ decode t = .ok .init then c
  else initialise Config.hw.arith SideOperands.presented.rate SideOperands.presented.cps c

end Sys2Proof.Machine
end

