-- ==== Sys2Proof/Machine/Dispatch.lean ====
section
/-! DEFINITION. The one dispatch: each transaction's meaning by name. -/

namespace Sys2Proof.Machine

open Sys2Proof

def exec (i : Instr) (s : State) : Host.Outcome State Fault Refusal :=
  match i with
  | .read offset => Sys2Proof.Machine.execRead offset s
  | .storeOnOff data => Sys2Proof.Machine.execStoreOnOff data s
  | .storeWaveform data => Sys2Proof.Machine.execStoreWaveform data s
  | .storeRateLo data => Sys2Proof.Machine.execStoreRateLo data s
  | .storeRateHi data => Sys2Proof.Machine.execStoreRateHi data s
  | .storeManual data => Sys2Proof.Machine.execStoreManual data s
  | .storeBad offset data => Sys2Proof.Machine.execStoreBad offset data s
  | .reset => Sys2Proof.Machine.execReset s
  | .sample => Sys2Proof.Machine.execSample s
  | .init => Sys2Proof.Machine.execInit s
  | .calcSamples => Sys2Proof.Machine.execCalc s
  | .qCycleBased => Sys2Proof.Machine.execQCycleBased s
  | .qChannels => Sys2Proof.Machine.execQChannels s

end Sys2Proof.Machine
end

