-- ==== Sys2Proof/Machine/Step.lean ====
section
/-! DEFINITION. One step: the block takes the next transaction of the total order (spec/20_memory.md R46, R50). -/

namespace Sys2Proof.Machine

open Sys2Proof

/-- What a taken word does: its transaction's meaning, or the refusal of a reserved word (R66). -/
def runWord (t : Word19) (s : State) : Outcome :=
  match decode t with
  | .ok i => exec i s
  | .error _ => s.refuseReserved

/-- One step. A faulted block has none (R166); with nothing pending the block keeps its state, since it acts only in
transactions (R23, R174; DESIGN CHOICE, safe: log 8). -/
def step (s : State) : Host.Outcome State Fault Refusal :=
  s.whenRunning
    (match s.pending with
    | [] => .next s
    | r :: rest => runWord r.word (s.accept r rest))

/-- `s` with the word presented as the next transaction, the block booted if it has had no INIT (log 10). -/
def State.withFetchWord (s : State) (nbits w : Nat) : State :=
  { s with
    chan := bootFor (tableWord nbits w) s.chan
    pending := presentWord (tableWord nbits w) :: s.pending }

end Sys2Proof.Machine
end

