-- ==== Sys2Proof/Machine/Assembler.lean ====
section
/-! DEFINITION. The textual transactions and the pseudo-transactions of spec/30_encoding.md R71 and R72, and the requests
they assemble to. The block never sees this text; it is how test programs are written. What R71 leaves open of the
text's form is log 14. -/

namespace Sys2Proof.Machine

open Sys2Proof

/-- One transaction of R71, with the side operands its line gives. -/
inductive Asm where
  | read (offset : Byte)
  | store (reg imm : Byte)
  | reset (clock : Nat)
  | sample
  | init (rate cps : Word32)
  | calcSamples (frames outch chipch : Word32)
  | qCycleBased
  | qChannels
  deriving DecidableEq, Repr

/-- The word of a line (R71's comments: KIND, OFFSET and DATA). -/
def Asm.word : Asm → Word19
  | .read offset => encode (.read offset)
  | .store reg imm => packWord 1 reg imm
  | .reset _ => encode .reset
  | .sample => encode .sample
  | .init _ _ => encode .init
  | .calcSamples _ _ _ => encode .calcSamples
  | .qCycleBased => encode .qCycleBased
  | .qChannels => encode .qChannels

/-- The side operands of a line; those it does not give are 0. -/
def Asm.side : Asm → SideOperands
  | .reset clock => { SideOperands.zero with clock := clock }
  | .init rate cps => { SideOperands.zero with rate := rate, cps := cps }
  | .calcSamples frames outch chipch => { SideOperands.zero with frames := frames, outch := outch, chipch := chipch }
  | .read _ => .zero
  | .store _ _ => .zero
  | .sample => .zero
  | .qCycleBased => .zero
  | .qChannels => .zero

/-- The request of a line, with the buffer the host hands over (R71: `Buf` is implicit). -/
def Asm.request (a : Asm) (buf : Option HostBuffer) : Request where
  agent := issuerOf (decode a.word)
  word := a.word
  side := a.side
  buf := buf

/-- The pseudo-transactions (R72). -/
inductive Pseudo where
  | on
  | off
  | setRate (imm : Period)
  | cb2 (imm : Byte)
  deriving DecidableEq, Repr

/-- Their expansions (R72): SETRATE writes the low byte first. -/
def Pseudo.expand : Pseudo → List Asm
  | .on => [.store 0 1]
  | .off => [.store 0 0]
  | .setRate imm => [.store 2 (imm.extractLsb' 0 8), .store 3 (imm.extractLsb' 8 8)]
  | .cb2 imm => [.store 4 imm]

/-! Reading a line of text. -/

/-- The value of a digit in a base, if it is one. -/
def digitOf (base : Nat) (c : Char) : Option Nat :=
  let n := c.toNat
  let d := if 48 ≤ n ∧ n ≤ 57 then n - 48 else if 97 ≤ n ∧ n ≤ 102 then n - 87 else if 65 ≤ n ∧ n ≤ 70 then n - 55 else 99
  if d < base then some d else none

/-- The number a nonempty list of digits stands for. -/
def digitsValue (base : Nat) (acc : Nat) : List Char → Option Nat
  | [] => some acc
  | c :: cs =>
    match digitOf base c with
    | some d => digitsValue base (acc * base + d) cs
    | none => none

/-- "Numbers are decimal, `0x` hexadecimal or `0b` binary" (R71). -/
def parseNumber : List Char → Option Nat
  | [] => none
  | '0' :: 'x' :: c :: cs => digitsValue 16 0 (c :: cs)
  | '0' :: 'b' :: c :: cs => digitsValue 2 0 (c :: cs)
  | c :: cs => digitsValue 10 0 (c :: cs)

/-- A number of at most `w` bits. -/
def parseBits (w : Nat) (t : List Char) : Option (BitVec w) :=
  match parseNumber t with
  | some n => if n < 2 ^ w then some (BitVec.ofNat w n) else none
  | none => none

/-- `<reg>`: a register's name or a number from 0 to 255 (R71). -/
def parseReg (t : List Char) : Option Byte :=
  if t = "ONOFF".toList then some 0
  else if t = "WAVEFORM".toList then some 1
  else if t = "RATE_LO".toList then some 2
  else if t = "RATE_HI".toList then some 3
  else if t = "MANUAL".toList then some 4
  else parseBits 8 t

/-- A line without its comment (R71: "Comments begin with `;`"). -/
def dropComment : List Char → List Char
  | [] => []
  | c :: cs => if c = ';' then [] else c :: dropComment cs

/-- The words of a line: spaces and tabs part them, a comma is a word of its own. `cur` is the word being read,
backwards. -/
def lexLine (cur : List Char) : List Char → List (List Char)
  | [] => if cur = [] then [] else [cur.reverse]
  | c :: cs =>
    let done := if cur = [] then [] else [cur.reverse]
    if c = ' ' ∨ c = '\t' then done ++ lexLine [] cs
    else if c = ',' then done ++ [','] :: lexLine [] cs
    else lexLine (c :: cur) cs

/-- The transactions the words of one line stand for; `none` where they are no line of R71 or R72. -/
def parseWords : List (List Char) → Option (List Asm)
  | [] => some []
  | [m] =>
    if m = "RESET".toList then some [.reset 0]
    else if m = "SAMPLE".toList then some [.sample]
    else if m = "Q.CYCLEBASED".toList then some [.qCycleBased]
    else if m = "Q.CHANNELS".toList then some [.qChannels]
    else if m = "ON".toList then some (Pseudo.expand .on)
    else if m = "OFF".toList then some (Pseudo.expand .off)
    else none
  | [m, a] =>
    if m = "READ".toList then (parseBits 8 a).map (fun v => [.read v])
    else if m = "RESET".toList then (parseNumber a).map (fun v => [.reset v])
    else if m = "SETRATE".toList then (parseBits 16 a).map (fun v => Pseudo.expand (.setRate v))
    else if m = "CB2".toList then (parseBits 8 a).map (fun v => Pseudo.expand (.cb2 v))
    else none
  | [m, a, [','], b] =>
    if m = "STORE".toList then
      (parseReg a).bind (fun r => (parseBits 8 b).map (fun v => [.store r v]))
    else if m = "INIT".toList then
      (parseBits 32 a).bind (fun r => (parseBits 32 b).map (fun c => [.init r c]))
    else if m = "CALC".toList then
      (parseBits 32 a).bind (fun f => (parseBits 32 b).map (fun o => [.calcSamples f o 1]))
    else none
  | [m, a, [','], b, [','], c] =>
    if m = "CALC".toList then
      (parseBits 32 a).bind (fun f => (parseBits 32 b).bind (fun o => (parseBits 32 c).map (fun h => [.calcSamples f o h])))
    else none
  | _ => none

/-- The transactions of one line of text. -/
def parseLine (line : String) : Option (List Asm) := parseWords (lexLine [] (dropComment line.toList))

/-- The transactions of a program, one line of text each (R71). -/
def parseProgram : List String → Option (List Asm)
  | [] => some []
  | l :: ls => (parseLine l).bind (fun a => (parseProgram ls).map (fun as => a ++ as))

/-- The agents issue the transactions of a program, in order, each CALC with the buffer given for it in `bufs`. -/
def State.issueAll (s : State) : List Asm → List HostBuffer → State
  | [], _ => s
  | .calcSamples f o h :: as, b :: bufs => ((s.issue (Asm.request (.calcSamples f o h) (some b))).issueAll as bufs)
  | a :: as, bufs => ((s.issue (a.request none)).issueAll as bufs)

end Sys2Proof.Machine
end

