-- ==== Sys2Proof/Safety.lean ====
section
/-! DEFINITION. What the machine keeps true (spec/10_state.md R31, R33, R34, spec/70_reset_and_hazards.md R180), which
states a run can reach under any two agents (spec/20_memory.md R50), and when a run is sound (spec/60_exceptions.md
R163, R166). -/

namespace Sys2Proof.Machine

open Sys2Proof

/-- The cursor invariant (R33), with the cursor a binary64 value (R20). -/
def CursorOk (c : ChannelState) : Prop := 0 ≤ c.bitCursor ∧ c.bitCursor < 8 ∧ IsBinary64 c.bitCursor

/-- The rate invariant (R26, R34, R87): `bsValid` says that the product is nonzero, and then the rate is the one
division; otherwise it is the value RECOMPUTE gives a zero period. -/
def RateOk (c : ChannelState) : Prop :=
  c.bsValid = decide (c.shiftPeriod.toNat * c.sampleRate.toNat ≠ 0) ∧
  c.bitsPerSample =
    if c.bsValid then round64 ((c.cyclesPerSecond.toNat : ℚ) / (c.shiftPeriod.toNat * c.sampleRate.toNat : ℕ)) else 0

/-- Configuration ranges after INIT (R31). -/
def ConfigOk (c : ChannelState) : Prop :=
  c.initDone = true → 1 ≤ c.sampleRate.toNat ∧ 1 ≤ c.cyclesPerSecond.toNat

/-- No fault before INIT (R180), none of ZERO_PERIOD on this hardware (R162), and only offsets 5 to 255 recorded
(R161). -/
def FaultOk (c : ChannelState) : Prop :=
  (c.initDone = false → c.fault = .none) ∧ c.fault ≠ .zeroPeriod ∧
  ∀ offset data, c.fault = .badOffset offset data → 5 ≤ offset.toNat

/-- The machine's invariant. -/
def State.Inv (s : State) : Prop := CursorOk s.chan ∧ RateOk s.chan ∧ ConfigOk s.chan ∧ FaultOk s.chan

/-- The block takes transactions: it has had INIT and has no fault. -/
def State.Ready (s : State) : Prop := s.chan.initDone = true ∧ s.chan.fault = .none

/-- The block is in the faulted state (R166). -/
def State.Faulted (s : State) : Prop := s.chan.fault ≠ .none

/-- The states that some interleaving of two agents can bring about from reset (R50). -/
inductive Reachable : State → Prop where
  | reset : Reachable State.reset
  | issue (s : State) (r : Request) : Reachable s → Reachable (s.issue r)
  | step (s t : State) : Reachable s → Machine.step s = .next t → Reachable t

/-- A run of `k` steps from `s` that ends well: no refusal, no stop, and not in the faulted state, which "is never a
final state of a run" (R163, R166). -/
def SafeRun (k : Nat) (s : State) : Prop :=
  ∃ t, Host.Core.run ⟨State, Fault, Refusal, Machine.step, State.reset⟩ k s = .next t ∧ ¬ t.Faulted

end Sys2Proof.Machine
end

