-- ==== Sys2Proof/Certificates/Slice0/Obligations.lean ====
section
/-! DEFINITION. The statements for the provers, and before them the few functions that write a rule of the spec out in plain
rational, integer or set arithmetic, so that a statement does not cite the model's own function for it. -/

namespace Sys2Proof.Reference

open Sys2Proof Sys2Proof.Machine

/-- The reserved words, as R66 lists them. -/
def IsReserved (t : Word19) : Prop :=
  kindField t = 7 ∨
  ((kindField t = 2 ∨ kindField t = 3 ∨ kindField t = 4 ∨ kindField t = 5) ∧ (offsetField t ≠ 0 ∨ dataField t ≠ 0)) ∨
  (kindField t = 6 ∧ (2 ≤ (offsetField t).toNat ∨ dataField t ≠ 0))

/-- `x - 8*floor(x/8)` in exact arithmetic (R118). -/
def mod8 (x : ℚ) : ℚ := x - 8 * ⌊x / 8⌋

/-- The source's loop `while (x >= d) x -= d` in binary64, for at most the given number of rounds (R118, R134). -/
def subtractLoop (d : ℚ) : ℕ → ℚ → ℚ
  | 0, x => x
  | n + 1, x => if d ≤ x then subtractLoop d n (round64 (x - d)) else x

/-- "the number of integers `i` with `lo <= i < hi` and `slotBit(w, i) == 1`" (R113), the integers written `lo + j` with
`0 <= j < hi - lo`. -/
def setCount (w : Byte) (lo hi : ℤ) : ℕ := ((Finset.range (hi - lo).toNat).filter (fun j : ℕ => slotBit w (lo + (j : ℤ)) = true)).card

/-- R112's `a`, each operation rounded once, in the order written. -/
def boxCount64 (s e : ℚ) (w : Byte) : ℚ :=
  let n : ℚ := setCount w (⌊s⌋ + 1) ⌊e⌋
  let a : ℚ := if slotBit w ⌊s⌋ then round64 (n + round64 ((⌊s⌋ + 1) - s)) else n
  if slotBit w ⌊e⌋ then round64 (a + round64 (e - ⌊e⌋)) else a

/-- R112's `r`, each operation rounded once, in the order written. -/
def boxRatio64 (s e : ℚ) (w : Byte) : ℚ := round64 (round64 (boxCount64 s e w * 4095) / round64 (e - s))

/-- Round to nearest, ties up, and clamp to 0 to 4095 (R13, this hardware's `DS_ROUND`). -/
def roundClamp (r : ℚ) : Sample := BitVec.ofNat 12 (min (max ⌊r + 1 / 2⌋ 0) 4095).toNat

/-- The mean level of the slots over the window `[s, e)`, slot `floor(s) + j` weighted by the part of
it that the window covers (R14, box filter). -/
def meanLevel (s e : ℚ) (w : Byte) : ℚ :=
  (∑ j ∈ Finset.range (⌊e⌋ + 1 - ⌊s⌋).toNat,
    if slotBit w (⌊s⌋ + j) then min e (⌊s⌋ + j + 1) - max s (⌊s⌋ + j) else 0) / (e - s)

/-- An outcome with a change made to its next state. -/
def mapNext (f : State → State) : Outcome → Outcome
  | .next t => .next (f t)
  | .fault x => .fault x
  | .refused x => .refused x

/-- A state with other values of the operands that no rule reads (R64). -/
def withUnread (s : State) (clock : ℕ) (chipch : Word32) (carry : ℕ) : State :=
  { s with side := { s.side with clock := clock, chipch := chipch, carry := carry } }

/-- A state with another value in the RATE_LO latch. -/
def withLatch (s : State) (v : Byte) : State := { s with chan := { s.chan with rateLo := v } }

end Sys2Proof.Reference

open Sys2Proof Sys2Proof.Machine Sys2Proof.Reference

/-- Decode and encode agree on every well-formed transaction (spec/30_encoding.md R60 to R62, R65). -/
def Obligations.DecodeInvertsEncode : Prop :=
  ∀ i : Instr, i.wf = true → decode (encode i) = .ok i

/-- Every accepted word is the word of what it decodes to (R60: DATA is don't-care for READ; log 12). -/
def Obligations.EncodeInvertsDecode : Prop :=
  ∀ (t : Word19) (i : Instr), decode t = .ok i →
    i.wf = true ∧ (encode i = t ∨ (i = .read (offsetField t) ∧ kindField t = 0))

/-- R66: reserved encodings are refused. -/
def Obligations.ReservedWordsAreRefused : Prop :=
  (∀ t : Word19, (∃ e, decode t = .error e) ↔ IsReserved t) ∧
  ∀ (s : State) (r : Request) (rest : List Request), s.Ready → s.pending = r :: rest → IsReserved r.word →
    step s = .refused .reservedEncoding

/-- R70: the opcode map. -/
def Obligations.OpcodeRowsCoverEachWordOnce : Prop :=
  ∀ t : Word19, (opcodeTable.filter (fun r => r.covers t)).map (fun r => r.mnemonic) =
    match decode t with
    | .ok i => [i.mnemonic]
    | .error _ => []

/-- R73: the encoding examples. -/
def Obligations.EncodingExamplesDecode : Prop :=
  (decode 0x10312 = .ok (.storeRateHi 0x12) ∧ encode (.storeRateHi 0x12) = 0x10312) ∧
  (decode 0x101FF = .ok (.storeWaveform 0xFF) ∧ encode (.storeWaveform 0xFF) = 0x101FF) ∧
  (decode 0x00300 = .ok (.read 3) ∧ encode (.read 3) = 0x00300) ∧
  (decode 0x10500 = .ok (.storeBad 5 0x00) ∧ encode (.storeBad 5 0x00) = 0x10500) ∧
  (decode 0x60100 = .ok .qChannels ∧ encode .qChannels = 0x60100)

/-- A step is the decoded transaction's meaning (R46, R50). The clause on an empty order is the model's choice, log 8. -/
def Obligations.StepRunsThePendingTransaction : Prop :=
  ∀ s : State, s.chan.fault = .none →
    (∀ (r : Request) (rest : List Request) (i : Instr), s.pending = r :: rest → decode r.word = .ok i →
      step s = exec i { chan := s.chan, side := r.side, buf := r.buf.getD s.buf, result := s.result, pending := rest }) ∧
    (s.pending = [] → step s = .next s)

/-- R183: INIT comes first; the check comes before that for reserved words (R165). -/
def Obligations.OnlyInitRunsBeforeInit : Prop :=
  ∀ s : State, s.chan.fault = .none → s.chan.initDone = false →
    (∀ i : Instr, i ≠ .init → exec i s = .refused .preInit) ∧
    (∀ (r : Request) (rest : List Request), s.pending = r :: rest → decode r.word ≠ .ok .init →
      step s = .refused .preInit)

/-- R140 and R31: what INIT writes, and when it is refused. -/
def Obligations.InitEstablishesInitialState : Prop :=
  ∀ s : State, s.chan.fault = .none →
    (s.side.rate ≠ 0 → s.side.cps ≠ 0 →
      exec .init s = .next { s with
        chan := {
          enabled := false, manualLevel := false, waveformByte := 0x00, rateLo := 0x20, shiftPeriod := 32,
          bitsPerSample := round64 ((s.side.cps.toNat : ℚ) / ((32 * s.side.rate.toNat : ℕ) : ℚ)), bsValid := true,
          bitCursor := 0, sampleRate := s.side.rate, cyclesPerSecond := s.side.cps, initDone := true,
          fault := .none }
        result := .ok 1 }) ∧
    (s.side.rate = 0 ∨ s.side.cps = 0 → exec .init s = .refused .badInitArg) ∧ encode .init = 0x40000

/-- R141: a second INIT is a cold initialisation. -/
def Obligations.SecondInitForgetsEverything : Prop :=
  ∀ s s' : State, s.chan.fault = .none → s'.chan.fault = .none → s.side.rate = s'.side.rate →
    s.side.cps = s'.side.cps → s.side.rate ≠ 0 → s.side.cps ≠ 0 →
    ∃ t t' : State, exec .init s = .next t ∧ exec .init s' = .next t' ∧ t.chan = t'.chan ∧ t.chan.initDone = true

/-- R137: READ. -/
def Obligations.ReadReturnsZeroAtEveryOffset : Prop :=
  (∀ (s : State) (offset : Byte), s.Ready → exec (.read offset) s = .next { s with result := .rdata 0 }) ∧
  ∀ t : Word19, kindField t = 0 → decode t = .ok (.read (offsetField t))

/-- R132: STORE.ONOFF. -/
def Obligations.StoreOnOffWritesEnabledOnly : Prop :=
  ∀ (s : State) (data : Byte), s.Ready →
    exec (.storeOnOff data) s =
      .next { s with chan := { s.chan with enabled := decide (data.toNat ≠ 0) }, result := .none } ∧
    encode (.storeOnOff data) = 0x10000 ||| data.setWidth 19

/-- R136: STORE.MANUAL. -/
def Obligations.StoreManualWritesManualLevelOnly : Prop :=
  ∀ (s : State) (data : Byte), s.Ready →
    exec (.storeManual data) s =
      .next { s with chan := { s.chan with manualLevel := decide (data.toNat ≠ 0) }, result := .none } ∧
    encode (.storeManual data) = 0x10400 ||| data.setWidth 19 ∧
    (s.chan.enabled = true → ∀ m : Bool, ∃ t t' : State,
      exec .sample s = .next t ∧ exec .sample { s with chan := { s.chan with manualLevel := m } } = .next t' ∧
      t.result = t'.result)

/-- R84: STORE.RATE_LO. -/
def Obligations.StoreRateLoWritesLatchOnly : Prop :=
  ∀ (s : State) (data : Byte), s.Ready →
    exec (.storeRateLo data) s = .next { s with chan := { s.chan with rateLo := data }, result := .none } ∧
    encode (.storeRateLo data) = 0x10200 ||| data.setWidth 19

/-- R85 (with RECOMPUTE written out, R87), over all policies of R88; the hardware's instance is SILENT (R7). -/
def Obligations.StoreRateHiRecomputesUnderEveryPolicy : Prop :=
  ∀ (s : State) (data : Byte), s.Ready →
    (exec (.storeRateHi data) s =
      storeRateHiUnder ⟨.binary64, .silent, .nearestTiesAway⟩ data s) ∧
    encode (.storeRateHi data) = 0x10300 ||| data.setWidth 19 ∧
    ∀ (pol : ZeroPeriodPolicy) (d : DsRound), ∃ newP : Period,
      newP.toNat = data.toNat * 256 + s.chan.rateLo.toNat ∧
      storeRateHiUnder ⟨.binary64, pol, d⟩ data s =
        if newP = 0 ∧ pol = .ignoreWrite then .next { s with result := .none }
        else .next { s with
          chan := { s.chan with
            shiftPeriod := newP
            bitsPerSample :=
              if newP.toNat * s.chan.sampleRate.toNat ≠ 0 then
                round64 ((s.chan.cyclesPerSecond.toNat : ℚ) / ((newP.toNat * s.chan.sampleRate.toNat : ℕ) : ℚ))
              else 0
            bsValid := decide (newP.toNat * s.chan.sampleRate.toNat ≠ 0) }
          result := .none }

/-- R41: period byte order. -/
def Obligations.LowThenHighByteFormsThePeriod : Prop :=
  ∀ (s : State) (lo hi : Byte), s.Ready →
    ∃ t u : State, exec (.storeRateLo lo) s = .next t ∧ exec (.storeRateHi hi) t = .next u ∧
      u.chan.shiftPeriod.toNat = hi.toNat * 256 + lo.toNat

/-- R133 and R134: the waveform write. -/
def Obligations.WaveformWriteKeepsCursorFraction : Prop :=
  ∀ (s : State) (data : Byte), s.Ready → CursorOk s.chan →
    exec (.storeWaveform data) s =
      .next { s with
        chan := { s.chan with
          waveformByte := data, bitCursor := s.chan.bitCursor - ⌊s.chan.bitCursor⌋ }
        result := .none } ∧
    0 ≤ s.chan.bitCursor - ⌊s.chan.bitCursor⌋ ∧ s.chan.bitCursor - ⌊s.chan.bitCursor⌋ < 1 ∧
    (s.chan.bitCursor < 1 → s.chan.bitCursor - ⌊s.chan.bitCursor⌋ = s.chan.bitCursor) ∧
    (∀ n : ℕ, 8 ≤ n → subtractLoop 1 n s.chan.bitCursor = s.chan.bitCursor - ⌊s.chan.bitCursor⌋) ∧
    encode (.storeWaveform data) = 0x10100 ||| data.setWidth 19

/-- R131: STORE.BAD. -/
def Obligations.StoreBadRaisesBadOffset : Prop :=
  (∀ (s : State) (offset data : Byte), s.Ready →
    exec (.storeBad offset data) s =
      .next { s with chan := { s.chan with fault := .badOffset offset data }, result := .none }) ∧
  ∀ t : Word19, kindField t = 1 → 5 ≤ (offsetField t).toNat →
    decode t = .ok (.storeBad (offsetField t) (dataField t))

/-- R166: entering the faulted state. -/
def Obligations.FaultsArePreciseAndTerminal : Prop :=
  (∀ (i : Instr) (s t : State), exec i s = .next t → t.Faulted →
    t = { s with chan := { s.chan with fault := t.chan.fault }, result := .none }) ∧
  ∀ s : State, s.Faulted → step s = .fault (.halted s.chan.fault) ∧
    ∀ r : Request, step (s.issue r) = .fault (.halted s.chan.fault)

/-- R167: a fault is never cleared. -/
def Obligations.NoTransactionClearsAFault : Prop :=
  ∀ (i : Instr) (s : State), s.Faulted → exec i s = .fault (.halted s.chan.fault)

/-- R139: RESET. -/
def Obligations.ResetWritesEnabledOnly : Prop :=
  (∀ (s : State) (clock : ℕ), s.Ready →
    exec .reset { s with side := { s.side with clock := clock } } =
      .next { s with side := { s.side with clock := clock }, chan := { s.chan with enabled := false }, result := .none } ∧
    ∃ t : State, exec .reset s = .next t ∧ exec .reset t = .next t) ∧
  (∀ s : State, s.Faulted → exec .reset s = .fault (.halted s.chan.fault)) ∧ encode .reset = 0x20000

/-- R111: EXACTSAMPLE, with the cursor advance of R117. -/
def Obligations.SampleExactModeTestsTheStartSlot : Prop :=
  ∀ s : State, s.Ready → s.chan.bsValid = true → s.chan.enabled = true → s.chan.bitsPerSample ≤ 1 →
    0 ≤ s.chan.bitCursor → s.chan.bitCursor < 8 →
    exec .sample s =
      .next { s with
        chan := { s.chan with bitCursor := mod8 (round64 (s.chan.bitCursor + s.chan.bitsPerSample)) }
        result := .sample (if s.chan.waveformByte.getLsbD (7 - ⌊s.chan.bitCursor⌋.toNat) then 4095 else 0) }

/-- R112: BOXSAMPLE, with the rounding of R13 and the cursor advance of R117. -/
def Obligations.SampleBoxModeIsTheBoxFilter : Prop :=
  ∀ s : State, s.Ready → s.chan.bsValid = true → s.chan.enabled = true → 1 < s.chan.bitsPerSample →
    exec .sample s =
      .next { s with
        chan := { s.chan with bitCursor := mod8 (round64 (s.chan.bitCursor + s.chan.bitsPerSample)) }
        result := .sample (roundClamp (boxRatio64 s.chan.bitCursor
          (round64 (s.chan.bitCursor + s.chan.bitsPerSample)) s.chan.waveformByte)) }

/-- R119: disabled output. -/
def Obligations.SampleDisabledGivesTheManualLevel : Prop :=
  ∀ s : State, s.Ready → s.chan.bsValid = true → s.chan.enabled = false →
    exec .sample s =
      .next { s with
        chan := { s.chan with bitCursor := mod8 (round64 (s.chan.bitCursor + s.chan.bitsPerSample)) }
        result := .sample (if s.chan.manualLevel then 4095 else 0) }

/-- R117: cursor advance. -/
def Obligations.EverySampleAdvancesTheCursor : Prop :=
  ∀ s : State, s.Ready → s.chan.bsValid = true →
    ∃ v : Sample, exec .sample s =
      .next { s with
        chan := { s.chan with bitCursor := mod8 (round64 (s.chan.bitCursor + s.chan.bitsPerSample)) }
        result := .sample v }

/-- R88 under SILENT, this hardware's policy (R7), and R110's first branch. -/
def Obligations.ZeroPeriodIsSilentOnThisHardware : Prop :=
  (∀ s : State, s.Ready → s.chan.rateLo = 0 → ∃ t : State, exec (.storeRateHi 0) s = .next t ∧
    t.chan = { s.chan with shiftPeriod := 0, bitsPerSample := 0, bsValid := false }) ∧
  ∀ s : State, s.Ready → s.chan.bsValid = false →
    exec .sample s =
      .next { s with result := .sample (if s.chan.enabled = false ∧ s.chan.manualLevel = true then 4095 else 0) }

/-- R162: the fault ZERO_PERIOD, over the policies of R88. -/
def Obligations.ZeroPeriodFaultsUnderFaultPolicyOnly : Prop :=
  ∀ (s : State) (pol : ZeroPeriodPolicy) (d : DsRound), s.Ready →
    (pol = .fault → s.chan.bsValid = false →
      sampleUnder ⟨.binary64, pol, d⟩ s = .next { s with chan := { s.chan with fault := .zeroPeriod }, result := .none } ∧
      (s.side.outch ≠ 0 → s.side.frames.toNat * s.side.outch.toNat ≤ s.buf.length →
        calcUnder ⟨.binary64, pol, d⟩ s =
          if s.side.frames = 0 then .next { s with result := .produced 0 }
          else .next { s with chan := { s.chan with fault := .zeroPeriod }, result := .none })) ∧
    (pol ≠ .fault ∨ s.chan.bsValid = true → ∀ t : State,
      (sampleUnder ⟨.binary64, pol, d⟩ s = .next t ∨ calcUnder ⟨.binary64, pol, d⟩ s = .next t) → ¬ t.Faulted)

/-- R144: fan-out and mix, with SAMPLE as the primitive CALC repeats (R61, R142). `Config.mix` is a free value. -/
def Obligations.CalcIsRepeatedSampleMixedIntoEveryChannel : Prop :=
  ∀ s : State, s.Ready → s.side.outch ≠ 0 → s.side.frames.toNat * s.side.outch.toNat ≤ s.buf.length →
    ∃ (t : State) (st : ℕ → State) (v : ℕ → Sample),
      exec .calcSamples s = .next t ∧ st 0 = s ∧
      (∀ f < s.side.frames.toNat, exec .sample (st f) = .next (st (f + 1)) ∧ (st (f + 1)).result = .sample (v f)) ∧
      t.chan = (st s.side.frames.toNat).chan ∧ (∃ b : ℚ, t.chan = { s.chan with bitCursor := b }) ∧
      t.result = .produced s.side.frames ∧ t.side = s.side ∧ t.pending = s.pending ∧
      t.buf.length = s.buf.length ∧
      (∀ f < s.side.frames.toNat, ∀ c < s.side.outch.toNat,
        bufRead t.buf (f * s.side.outch.toNat + c) =
          Config.mix (bufRead s.buf (f * s.side.outch.toNat + c)) (v f)) ∧
      ∀ k : ℕ, s.side.frames.toNat * s.side.outch.toNat ≤ k → bufRead t.buf k = bufRead s.buf k

/-- R143: CALC's argument range, over all parameters of R7. Under FAULT with `bsValid` false the refusal comes before the
fault: "A CALC that is refused for its arguments never reaches `ZERO_PERIOD`" (R165). -/
def Obligations.CalcRefusesBadArguments : Prop :=
  ∀ s : State, s.Ready →
    ((s.side.outch = 0 ∨ s.buf.length < s.side.frames.toNat * s.side.outch.toNat) →
      exec .calcSamples s = .refused .badCalcArg ∧ ∀ p : Params, calcUnder p s = .refused .badCalcArg) ∧
    (s.side.outch ≠ 0 → s.side.frames.toNat * s.side.outch.toNat ≤ s.buf.length → ∀ x : Refusal,
      exec .calcSamples s ≠ .refused x ∧ ∀ p : Params, calcUnder p s ≠ .refused x)

/-- R146 and R147: the capability queries. -/
def Obligations.QueriesReturnConstants : Prop :=
  ∀ s : State, s.Ready →
    exec .qCycleBased s = .next { s with result := .qresult 0 } ∧
    exec .qChannels s = .next { s with result := .qresult 1 } ∧
    encode .qCycleBased = 0x60000 ∧ encode .qChannels = 0x60100

/-- R82: when the rate changes. -/
def Obligations.RateIsWrittenOnlyByRateHiAndInit : Prop :=
  ∀ (i : Instr) (s t : State), exec i s = .next t →
    (i ≠ .init → (∀ data, i ≠ .storeRateHi data) →
      t.chan.bitsPerSample = s.chan.bitsPerSample ∧ t.chan.bsValid = s.chan.bsValid) ∧
    ((i = .init ∨ ∃ data, i = .storeRateHi data) → RateOk t.chan)

/-- The frames of all transactions over the twelve fields of R20: the registers (R24, R25, R27, R130), the rate (R26, R82),
the cursor (R23), the configuration (R29), `initDone` (R140) and `fault` (R131, R161; never ZERO_PERIOD here, R162). -/
def Obligations.EachFieldIsWrittenByItsTransactionsOnly : Prop :=
  ∀ (i : Instr) (s t : State), exec i s = .next t →
    (t.chan.enabled ≠ s.chan.enabled → (∃ d, i = .storeOnOff d) ∨ i = .reset ∨ i = .init) ∧
    (t.chan.manualLevel ≠ s.chan.manualLevel → (∃ d, i = .storeManual d) ∨ i = .init) ∧
    (t.chan.waveformByte ≠ s.chan.waveformByte → (∃ d, i = .storeWaveform d) ∨ i = .init) ∧
    (t.chan.rateLo ≠ s.chan.rateLo → (∃ d, i = .storeRateLo d) ∨ i = .init) ∧
    (t.chan.shiftPeriod ≠ s.chan.shiftPeriod → (∃ d, i = .storeRateHi d) ∨ i = .init) ∧
    (t.chan.bitsPerSample ≠ s.chan.bitsPerSample → (∃ d, i = .storeRateHi d) ∨ i = .init) ∧
    (t.chan.bsValid ≠ s.chan.bsValid → (∃ d, i = .storeRateHi d) ∨ i = .init) ∧
    (t.chan.bitCursor ≠ s.chan.bitCursor →
      i = .sample ∨ i = .calcSamples ∨ (∃ d, i = .storeWaveform d) ∨ i = .init) ∧
    ((t.chan.sampleRate ≠ s.chan.sampleRate ∨ t.chan.cyclesPerSecond ≠ s.chan.cyclesPerSecond ∨
      t.chan.initDone ≠ s.chan.initDone) → i = .init) ∧
    (t.chan.fault ≠ s.chan.fault → ∃ o d, i = .storeBad o d)

/-- The frames of all transactions over the buffer, the ports and the pending order (R53). -/
def Obligations.OnlyCalcTouchesTheBuffer : Prop :=
  ∀ (i : Instr) (s t : State), exec i s = .next t →
    (i ≠ .calcSamples → t.buf = s.buf ∧ ∀ k, bufRead t.buf k = bufRead s.buf k) ∧
    t.buf.length = s.buf.length ∧
    (∀ k, s.side.frames.toNat * s.side.outch.toNat ≤ k → bufRead t.buf k = bufRead s.buf k) ∧
    t.side = s.side ∧ t.pending = s.pending

/-- R47: idempotency of each access. -/
def Obligations.RegisterWritesAreIdempotent : Prop :=
  ∀ (s t : State), CursorOk s.chan →
    (∀ i : Instr, (i = .reset ∨ ∃ d, i = .storeOnOff d ∨ i = .storeWaveform d ∨ i = .storeRateLo d ∨
        i = .storeRateHi d ∨ i = .storeManual d) → exec i s = .next t → exec i t = .next t) ∧
    (∀ i : Instr, (i = .qCycleBased ∨ i = .qChannels ∨ ∃ o, i = .read o) → exec i s = .next t → t.chan = s.chan)

/-- The invariant at reset. The values of the registers there are the model's choice, log 1. -/
def Obligations.ResetMeetsTheInvariant : Prop :=
  State.reset.Inv

/-- R33, R34, R31, R26, R180: the invariants hold after every transaction. -/
def Obligations.StepKeepsTheInvariant : Prop :=
  ∀ s t : State, s.Inv → step s = .next t → t.Inv

/-- R33 and R34 over all interleavings (R50). In the states before INIT the registers hold the model's reset values, not the
spec's: its choice, log 1. -/
def Obligations.ReachableStatesMeetTheInvariant : Prop :=
  ∀ s : State, Reachable s → s.Inv ∧
    (s.Faulted → ∃ o d : Byte, s.chan.fault = .badOffset o d ∧ 5 ≤ o.toNat)

/-- R33: the cursor invariant. -/
def Obligations.CursorStaysInRange : Prop :=
  ∀ (i : Instr) (s t : State), CursorOk s.chan → exec i s = .next t →
    0 ≤ t.chan.bitCursor ∧ t.chan.bitCursor < 8 ∧ ((∃ d, i = .storeWaveform d) → t.chan.bitCursor < 1)

/-- R34: the rate invariant (and R87's bound). -/
def Obligations.ValidRateIsPositiveAndBounded : Prop :=
  ∀ s : State, s.Inv → s.chan.initDone = true →
    (s.chan.bsValid = true →
      s.chan.bitsPerSample =
        round64 ((s.chan.cyclesPerSecond.toNat : ℚ) / ((s.chan.shiftPeriod.toNat * s.chan.sampleRate.toNat : ℕ) : ℚ)) ∧
      0 < s.chan.bitsPerSample ∧ IsBinary64 s.chan.bitsPerSample ∧ s.chan.bitsPerSample < 2 ^ 32) ∧
    (s.chan.bsValid = false → s.chan.bitsPerSample = 0)

/-- R86: the product is exact. -/
def Obligations.RateOperandsAreExactInBinary64 : Prop :=
  ∀ (period : Period) (rate cps : Word32),
    period.toNat * rate.toNat < 2 ^ 48 ∧
    round64 ((period.toNat * rate.toNat : ℕ) : ℚ) = ((period.toNat * rate.toNat : ℕ) : ℚ) ∧
    round64 (cps.toNat : ℚ) = (cps.toNat : ℚ) ∧
    (period.toNat * rate.toNat ≠ 0 → rateOf .binary64 period rate cps =
      round64 ((cps.toNat : ℚ) / ((period.toNat * rate.toNat : ℕ) : ℚ)))

/-- R118: fmod8 is exact and equals the source's loop. -/
def Obligations.CursorReductionEqualsSubtractionLoop : Prop :=
  ∀ (x : ℚ) (n : ℕ), IsBinary64 x → 0 ≤ x → x < 2 ^ 53 → ⌊x / 8⌋ ≤ n →
    subtractLoop 8 n x = fmod8 x ∧ fmod8 x = mod8 x ∧ IsBinary64 (fmod8 x)

/-- R114: the window is well formed. -/
def Obligations.BoxWindowIsWellFormed : Prop :=
  ∀ (s bs : ℚ), 0 ≤ s → s < 8 → IsBinary64 s → 1 < bs →
    ⌊s⌋ + 1 ≤ ⌊round64 (s + bs)⌋ ∧ ((⌊s⌋ + 1 : ℤ) : ℚ) ≤ round64 (s + bs) ∧ 0 < round64 (round64 (s + bs) - s)

/-- R113: COUNTSET and the mode boundary. -/
def Obligations.CountSetCountsTheSetSlots : Prop :=
  (∀ (w : Byte) (lo hi : ℤ), countSet w lo hi = setCount w lo hi) ∧
  ∀ c : ChannelState, c.enabled = true →
    sampleValue Config.hw c =
      if 1 < c.bitsPerSample then
        boxSample Config.hw c.bitCursor (round64 (c.bitCursor + c.bitsPerSample)) c.waveformByte
      else exactSample c.bitCursor c.waveformByte

/-- R116: with every slot set NEAREST_TIES_AWAY gives 4095, with none set the result is 0. -/
def Obligations.AllSlotsSetGivesFullScale : Prop :=
  ∀ (s bs : ℚ), 0 ≤ s → s < 8 → IsBinary64 s → IsBinary64 bs → 1 < bs → bs < 2 ^ 32 →
    boxSample Config.hw s (round64 (s + bs)) 0xFF = 4095 ∧ boxSample Config.hw s (round64 (s + bs)) 0x00 = 0

/-- R14's box filter and R116's range, for the exact instance of ARITH (R12). -/
def Obligations.BoxFilterIsTheMeanInExactArithmetic : Prop :=
  ∀ (s e : ℚ) (w : Byte), s < e → ((⌊s⌋ + 1 : ℤ) : ℚ) ≤ e →
    boxRatio .exact s e w = 4095 * meanLevel s e w ∧ 0 ≤ boxRatio .exact s e w ∧ boxRatio .exact s e w ≤ 4095

/-- R13: rounding of the box-filter result. -/
def Obligations.OutputRoundingIsNearestTiesUp : Prop :=
  (∀ (r : ℚ) (n : ℤ), |(roundOut .nearestTiesAway r : ℚ) - r| ≤ |(n : ℚ) - r|) ∧
  (∀ r : ℚ, r - ⌊r⌋ = 1 / 2 → roundOut .nearestTiesAway r = ⌊r⌋ + 1) ∧
  (∀ r : ℚ, roundOut .truncate r = ⌊r⌋) ∧
  ∀ n : ℤ, ((clamp12 n).toNat : ℤ) = min (max n 0) 4095

/-- R50: the order keeps each agent's own issue order, and any interleaving is possible. -/
def Obligations.EachAgentsOrderIsKept : Prop :=
  (∀ (s t : State) (a : Agent), step s = .next t →
    ∃ taken : List Request, taken.length ≤ 1 ∧
      s.pending.filter (fun r => r.agent = a) = taken ++ t.pending.filter (fun r => r.agent = a)) ∧
  (∀ (s : State) (r : Request) (a : Agent), (s.issue r).pending.filter (fun q => q.agent = a) =
    s.pending.filter (fun q => q.agent = a) ++ if r.agent = a then [r] else []) ∧
  ∀ (s : State) (order : List Request), s.pending = [] →
    (order.foldl State.issue s).pending = order

/-- R169: the block does not check which agent issued a transaction. -/
def Obligations.IssuerMakesNoDifference : Prop :=
  ∀ (s : State) (r : Request) (rest : List Request) (a : Agent), s.pending = r :: rest →
    step s = step { s with pending := { r with agent := a } :: rest }

/-- R32: a write to RATE_LO alone has no observable effect until RATE_HI is written. -/
def Obligations.LatchIsInvisibleUntilRateHi : Prop :=
  ∀ (s : State) (v : Byte),
    exec .sample (withLatch s v) = mapNext (fun t => withLatch t v) (exec .sample s) ∧
    exec .calcSamples (withLatch s v) = mapNext (fun t => withLatch t v) (exec .calcSamples s)

/-- R64: CLOCK is read by no rule, CARRY is neither read nor written; R145: CHIPCH is read by no rule. -/
def Obligations.UnreadOperandsAreIgnored : Prop :=
  ∀ (i : Instr) (s : State) (clock : ℕ) (chipch : Word32) (carry : ℕ),
    exec i (withUnread s clock chipch carry) = mapNext (fun t => withUnread t clock chipch carry) (exec i s)

/-- R184: with step 2 skipped entirely, the channel is off, the manual level is low and every sample is 0. -/
def Obligations.ChannelIsSilentAfterInitAlone : Prop :=
  ∀ (s t : State), exec .init s = .next t →
    ∃ st : ℕ → State, st 0 = t ∧
      ∀ k, exec .sample (st k) = .next (st (k + 1)) ∧ (st (k + 1)).result = .sample 0

/-- R72: the pseudo-transactions. -/
def Obligations.PseudoTransactionsExpand : Prop :=
  ((Pseudo.expand .on).map (fun a => decode a.word) = [.ok (.storeOnOff 1)]) ∧
  ((Pseudo.expand .off).map (fun a => decode a.word) = [.ok (.storeOnOff 0)]) ∧
  (∀ imm : Period, (Pseudo.expand (.setRate imm)).map (fun a => decode a.word) =
    [.ok (.storeRateLo (imm.extractLsb' 0 8)), .ok (.storeRateHi (imm.extractLsb' 8 8))]) ∧
  ∀ imm : Byte, (Pseudo.expand (.cb2 imm)).map (fun a => decode a.word) = [.ok (.storeManual imm)]
end

