-- ==== Sys2Proof/Laws/Arith.lean ====
section
/-! SUPPORT. The arithmetic primitives: the exact operations are the field's, and rounding gives a nearest binary64 value,
fixes binary64 values and never crosses one. -/

namespace Sys2Proof.Machine

open Sys2Proof

/-! The exact operations. -/

@[simp] theorem ratAdd_eq (a b : ℚ) : ratAdd a b = a + b := by rw [Rat.add_def']; rfl

@[simp] theorem ratSub_eq (a b : ℚ) : ratSub a b = a - b := by rw [Rat.sub_def']; rfl

@[simp] theorem ratMul_eq (a b : ℚ) : ratMul a b = a * b := by rw [Rat.mul_def']; rfl

@[simp] theorem ratDiv_eq (a b : ℚ) : ratDiv a b = a / b := by rw [Rat.div_def']; rfl

@[simp] theorem toF_eq (n : ℤ) : toF n = n := rfl

@[simp] theorem pow2_eq (e : ℤ) : pow2 e = (2 : ℚ) ^ e := by
  cases e with
  | ofNat n => simp [pow2]
  | negSucc n => simp [pow2, zpow_negSucc, Rat.mkRat_eq_div]

@[simp] theorem arithRound_exact (q : ℚ) : arithRound .exact q = q := rfl

@[simp] theorem arithRound_binary64 (q : ℚ) : arithRound .binary64 q = round64 q := rfl

theorem fadd_eq (A : Arith) (a b : ℚ) : fadd A a b = arithRound A (a + b) := by simp [fadd]

theorem fsub_eq (A : Arith) (a b : ℚ) : fsub A a b = arithRound A (a - b) := by simp [fsub]

theorem fmul_eq (A : Arith) (a b : ℚ) : fmul A a b = arithRound A (a * b) := by simp [fmul]

theorem fdiv_eq (A : Arith) (a b : ℚ) : fdiv A a b = arithRound A (a / b) := by simp [fdiv]

/-! The magnitude and the unit in the last place. -/

theorem two_zpow_pos (e : ℤ) : (0 : ℚ) < 2 ^ e := zpow_pos (by norm_num) e

theorem ilog2_spec {q : ℚ} (hq : 0 < q) : (2 : ℚ) ^ ilog2 q ≤ q ∧ q < 2 ^ (ilog2 q + 1) := by
  have hnum : 0 < q.num := Rat.num_pos.mpr hq
  have hnat : q.num.natAbs ≠ 0 := Int.natAbs_ne_zero.mpr hnum.ne'
  have hn : ((q.num.natAbs : ℕ) : ℚ) = q.num := by
    have : (q.num.natAbs : ℤ) = q.num := Int.natAbs_of_nonneg hnum.le
    rw [← Int.cast_natCast, this]
  have hd : (0 : ℚ) < q.den := by exact_mod_cast q.den_pos
  have hqd : q * q.den = q.num := Rat.mul_den_eq_num q
  have n1 : (2 : ℚ) ^ (Nat.log2 q.num.natAbs : ℤ) ≤ q.num := by
    rw [← hn]; exact_mod_cast Nat.log2_self_le hnat
  have n2 : (q.num : ℚ) < 2 ^ ((Nat.log2 q.num.natAbs : ℤ) + 1) := by
    rw [← hn]; exact_mod_cast Nat.lt_log2_self
  have d1 : (2 : ℚ) ^ (Nat.log2 q.den : ℤ) ≤ q.den := by exact_mod_cast Nat.log2_self_le q.den_nz
  have d2 : (q.den : ℚ) < 2 ^ ((Nat.log2 q.den : ℤ) + 1) := by exact_mod_cast Nat.lt_log2_self
  generalize hN : (Nat.log2 q.num.natAbs : ℤ) = a at *
  generalize hD : (Nat.log2 q.den : ℤ) = b at *
  have two : (2 : ℚ) ≠ 0 := by norm_num
  have upper : q < 2 ^ (a - b + 1) := by
    have h : q * 2 ^ b < 2 ^ (a - b + 1) * 2 ^ b := by
      rw [← zpow_add₀ two, show a - b + 1 + b = a + 1 by ring]
      calc q * 2 ^ b ≤ q * q.den := by gcongr
        _ = q.num := hqd
        _ < 2 ^ (a + 1) := n2
    exact lt_of_mul_lt_mul_right h (two_zpow_pos b).le
  have lower : (2 : ℚ) ^ (a - b - 1) ≤ q := by
    have h : (2 : ℚ) ^ (a - b - 1) * 2 ^ (b + 1) ≤ q * 2 ^ (b + 1) := by
      rw [← zpow_add₀ two, show a - b - 1 + (b + 1) = a by ring]
      calc (2 : ℚ) ^ a ≤ q.num := n1
        _ = q * q.den := hqd.symm
        _ ≤ q * 2 ^ (b + 1) := by gcongr
    exact le_of_mul_le_mul_right h (two_zpow_pos _)
  have hl : ilog2 q = if q < 2 ^ (a - b) then a - b - 1 else a - b := by
    simp only [ilog2, pow2_eq, hN, hD]
  rw [hl]
  split
  · next h => exact ⟨lower, by rwa [show a - b - 1 + 1 = a - b by ring]⟩
  · next h => exact ⟨not_lt.mp h, upper⟩

theorem ulp64_eq (q : ℚ) : ulp64 q = (2 : ℚ) ^ max (ilog2 |q| - 52) (-1074) := by
  have h : (if q < 0 then -q else q) = |q| := by
    split
    · next h => rw [abs_of_neg h]
    · next h => rw [abs_of_nonneg (not_lt.mp h)]
  simp only [ulp64, h, pow2_eq]

theorem ulp64_pos (q : ℚ) : 0 < ulp64 q := by rw [ulp64_eq]; exact two_zpow_pos _

/-- The unit of a value at or above `2^-1022` is at most `2^-52` of it. -/
theorem ulp64_le_of_normal {q : ℚ} (hq : (2 : ℚ) ^ (-1022 : ℤ) ≤ |q|) : ulp64 q ≤ |q| * 2 ^ (-52 : ℤ) := by
  have hpos : 0 < |q| := lt_of_lt_of_le (two_zpow_pos _) hq
  obtain ⟨h1, h2⟩ := ilog2_spec hpos
  have hk : -1022 ≤ ilog2 |q| := by
    have := lt_of_le_of_lt hq h2
    have := (zpow_lt_zpow_iff_right₀ (by norm_num : (1 : ℚ) < 2)).mp this
    omega
  rw [ulp64_eq, max_eq_left (by omega), show ilog2 |q| - 52 = ilog2 |q| + (-52) by ring,
    zpow_add₀ (by norm_num : (2 : ℚ) ≠ 0)]
  gcongr

/-! Rounding to an integer. -/

theorem roundEven_cases (q : ℚ) :
    (roundEven q = ⌊q⌋ ∧ q - ⌊q⌋ ≤ 1 / 2) ∨ (roundEven q = ⌊q⌋ + 1 ∧ 1 / 2 ≤ q - ⌊q⌋) := by
  simp only [roundEven, ratSub_eq, ratAdd_eq]
  split_ifs with h1 h2 h3
  · exact .inl ⟨rfl, by linarith⟩
  · exact .inr ⟨rfl, by linarith⟩
  · exact .inl ⟨rfl, by linarith⟩
  · exact .inr ⟨rfl, by linarith⟩

theorem roundEven_abs_sub_le (q : ℚ) (n : ℤ) : |(roundEven q : ℚ) - q| ≤ |(n : ℚ) - q| := by
  have f1 := Int.floor_le q
  have f2 := Int.lt_floor_add_one q
  rcases le_or_gt n ⌊q⌋ with hn | hn
  · have hn' : (n : ℚ) ≤ ⌊q⌋ := by exact_mod_cast hn
    rw [abs_of_nonpos (by linarith : (n : ℚ) - q ≤ 0)]
    rcases roundEven_cases q with ⟨h, hh⟩ | ⟨h, hh⟩ <;> rw [h] <;> push_cast <;> rw [abs_le] <;>
      constructor <;> linarith
  · have hn' : (⌊q⌋ : ℚ) + 1 ≤ n := by exact_mod_cast hn
    rw [abs_of_nonneg (by linarith : 0 ≤ (n : ℚ) - q)]
    rcases roundEven_cases q with ⟨h, hh⟩ | ⟨h, hh⟩ <;> rw [h] <;> push_cast <;> rw [abs_le] <;>
      constructor <;> linarith

theorem roundEven_abs_sub_le_half (q : ℚ) : |(roundEven q : ℚ) - q| ≤ 1 / 2 := by
  have f1 := Int.floor_le q
  have f2 := Int.lt_floor_add_one q
  rcases roundEven_cases q with ⟨h, hh⟩ | ⟨h, hh⟩ <;> rw [h] <;> push_cast <;> rw [abs_le] <;>
    constructor <;> linarith

@[simp] theorem roundEven_intCast (n : ℤ) : roundEven n = n := by
  have h := roundEven_abs_sub_le (n : ℚ) n
  rw [sub_self, abs_zero] at h
  have := abs_nonpos_iff.mp h
  exact_mod_cast sub_eq_zero.mp this

theorem le_roundEven {q : ℚ} {n : ℤ} (h : (n : ℚ) ≤ q) : n ≤ roundEven q := by
  have hf : n ≤ ⌊q⌋ := Int.le_floor.mpr h
  rcases roundEven_cases q with ⟨e, -⟩ | ⟨e, -⟩ <;> omega

theorem roundEven_le {q : ℚ} {n : ℤ} (h : q ≤ n) : roundEven q ≤ n := by
  rcases roundEven_cases q with ⟨e, -⟩ | ⟨e, hh⟩
  · have := Int.floor_le_ceil q
    have := Int.ceil_le.mpr h
    omega
  · have : (⌊q⌋ : ℚ) < n := by linarith
    have : ⌊q⌋ < n := by exact_mod_cast this
    omega

/-- A tie goes to the even neighbour. -/
theorem roundEven_tie {q : ℚ} (h : q - ⌊q⌋ = 1 / 2) : roundEven q % 2 = 0 := by
  have ht : q - ⌊q⌋ + (q - ⌊q⌋) = 1 := by linarith
  simp only [roundEven, ratSub_eq, ratAdd_eq, ht, lt_irrefl, if_false]
  split_ifs <;> omega

/-! Rounding to binary64. -/

@[simp] theorem round64_zero : round64 0 = 0 := by simp [round64]

theorem round64_eq (q : ℚ) : round64 q = roundEven (q / ulp64 q) * ulp64 q := by
  by_cases h : q = 0
  · have h0 : roundEven (0 : ℚ) = 0 := by exact_mod_cast roundEven_intCast 0
    simp [h, h0]
  · simp [round64, h]

theorem isBinary64_zero : IsBinary64 0 := ⟨0, 0, by norm_num, by norm_num, by simp⟩

theorem isBinary64_intCast {n : ℤ} (h : |n| < 2 ^ 53) : IsBinary64 n := ⟨n, 0, h, by norm_num, by simp⟩

/-- Between a binary64 value and any number there is a multiple of the number's unit, the value's side included. -/
theorem exists_multiple_between {b q : ℚ} (hb : IsBinary64 b) (hq : q ≠ 0) :
    ∃ n : ℤ, (b ≤ n * ulp64 q ∧ n * ulp64 q ≤ q) ∨ (q ≤ n * ulp64 q ∧ n * ulp64 q ≤ b) := by
  obtain ⟨m, e, hm, he, rfl⟩ := hb
  have two : (2 : ℚ) ≠ 0 := by norm_num
  have hpos : 0 < |q| := abs_pos.mpr hq
  obtain ⟨hk1, hk2⟩ := ilog2_spec hpos
  rw [ulp64_eq]
  generalize hk : ilog2 |q| = k at *
  by_cases hE : max (k - 52) (-1074) ≤ e
  · refine ⟨m * 2 ^ (e - max (k - 52) (-1074)).toNat, ?_⟩
    have : ((m * 2 ^ (e - max (k - 52) (-1074)).toNat : ℤ) : ℚ) * 2 ^ max (k - 52) (-1074) = m * 2 ^ e := by
      push_cast
      rw [← zpow_natCast, Int.toNat_of_nonneg (by omega), mul_assoc, ← zpow_add₀ two]
      congr 2; ring
    rw [this]
    rcases le_total ((m : ℚ) * 2 ^ e) q with h | h
    · exact .inl ⟨le_rfl, h⟩
    · exact .inr ⟨h, le_rfl⟩
  · have hmax : max (k - 52) (-1074) = k - 52 := by omega
    rw [hmax]
    have hB : ((2 ^ 52 : ℤ) : ℚ) * 2 ^ (k - 52) = 2 ^ k := by
      push_cast
      rw [show (4503599627370496 : ℚ) = 2 ^ (52 : ℤ) by norm_num, ← zpow_add₀ two]
      congr 1; ring
    have hsmall : |(m : ℚ) * 2 ^ e| < 2 ^ k := by
      rw [abs_mul, abs_of_pos (two_zpow_pos e)]
      have h1 : |(m : ℚ)| < 2 ^ (53 : ℤ) := by exact_mod_cast hm
      calc |(m : ℚ)| * 2 ^ e < 2 ^ (53 : ℤ) * 2 ^ e := by gcongr
        _ = 2 ^ (53 + e) := (zpow_add₀ two _ _).symm
        _ ≤ 2 ^ k := zpow_le_zpow_right₀ (by norm_num) (by omega)
    obtain ⟨hl, hr⟩ := abs_lt.mp hsmall
    rcases lt_or_gt_of_ne hq with hneg | hpos'
    · refine ⟨-2 ^ 52, .inr ?_⟩
      rw [abs_of_neg hneg] at hk1
      push_cast at hB ⊢
      constructor <;> linarith
    · refine ⟨2 ^ 52, .inl ?_⟩
      rw [abs_of_pos hpos'] at hk1
      rw [hB]
      constructor <;> linarith

/-- Rounding never crosses a binary64 value from below. -/
theorem round64_le {b q : ℚ} (hb : IsBinary64 b) (h : q ≤ b) : round64 q ≤ b := by
  by_cases hq : q = 0
  · simpa [hq] using hq ▸ h
  obtain ⟨n, hn⟩ := exists_multiple_between hb hq
  have u := ulp64_pos q
  have key : ∀ n : ℤ, q ≤ n * ulp64 q → round64 q ≤ n * ulp64 q := fun n hle => by
    rw [round64_eq]
    have : roundEven (q / ulp64 q) ≤ n := roundEven_le ((div_le_iff₀ u).mpr hle)
    gcongr
  rcases hn with ⟨h1, h2⟩ | ⟨h1, h2⟩
  · have heq : q = n * ulp64 q := le_antisymm (h.trans h1) h2
    exact (key n heq.le).trans (h2.trans h)
  · exact (key n h1).trans h2

/-- Rounding never crosses a binary64 value from above. -/
theorem le_round64 {b q : ℚ} (hb : IsBinary64 b) (h : b ≤ q) : b ≤ round64 q := by
  by_cases hq : q = 0
  · simpa [hq] using hq ▸ h
  obtain ⟨n, hn⟩ := exists_multiple_between hb hq
  have u := ulp64_pos q
  have key : ∀ n : ℤ, n * ulp64 q ≤ q → n * ulp64 q ≤ round64 q := fun n hle => by
    rw [round64_eq]
    have : n ≤ roundEven (q / ulp64 q) := le_roundEven ((le_div_iff₀ u).mpr hle)
    gcongr
  rcases hn with ⟨h1, h2⟩ | ⟨h1, h2⟩
  · exact h1.trans (key n h2)
  · have heq : q = n * ulp64 q := le_antisymm h1 (h2.trans h)
    exact (h.trans h1).trans (key n heq.ge)

/-- A binary64 value rounds to itself. -/
theorem round64_of_isBinary64 {b : ℚ} (hb : IsBinary64 b) : round64 b = b :=
  le_antisymm (round64_le hb le_rfl) (le_round64 hb le_rfl)

/-- Rounding gives a binary64 value. -/
theorem isBinary64_round64 (q : ℚ) : IsBinary64 (round64 q) := by
  by_cases hq : q = 0
  · simpa [hq] using isBinary64_zero
  have two : (2 : ℚ) ≠ 0 := by norm_num
  have hpos : 0 < |q| := abs_pos.mpr hq
  obtain ⟨hk1, hk2⟩ := ilog2_spec hpos
  rw [round64_eq, ulp64_eq]
  generalize ilog2 |q| = k at *
  generalize hE : max (k - 52) (-1074) = E at *
  have hu : (0 : ℚ) < 2 ^ E := two_zpow_pos E
  have hbound : |q / 2 ^ E| ≤ ((2 ^ 53 : ℤ) : ℚ) := by
    rw [abs_div, abs_of_pos hu, div_le_iff₀ hu]
    push_cast
    rw [show (9007199254740992 : ℚ) = 2 ^ (53 : ℤ) by norm_num, ← zpow_add₀ two]
    exact hk2.le.trans (zpow_le_zpow_right₀ (by norm_num) (by omega))
  obtain ⟨hl, hr⟩ := abs_le.mp hbound
  have r1 : roundEven (q / 2 ^ E) ≤ 2 ^ 53 := roundEven_le hr
  have r2 : -2 ^ 53 ≤ roundEven (q / 2 ^ E) := le_roundEven (by push_cast at hl ⊢; linarith)
  rcases lt_or_eq_of_le (abs_le.mpr ⟨r2, r1⟩) with h | h
  · exact ⟨_, E, h, by omega, rfl⟩
  · rcases abs_eq (by norm_num) |>.mp h with h | h <;> rw [h]
    · exact ⟨2 ^ 52, E + 1, by norm_num, by omega, by rw [zpow_add₀ two]; push_cast; ring⟩
    · exact ⟨-2 ^ 52, E + 1, by norm_num, by omega, by rw [zpow_add₀ two]; push_cast; ring⟩

/-- Rounding goes to a nearest binary64 value. -/
theorem round64_nearest {b : ℚ} (hb : IsBinary64 b) (q : ℚ) : |round64 q - q| ≤ |b - q| := by
  by_cases hq : q = 0
  · simp [hq]
  obtain ⟨n, hn⟩ := exists_multiple_between hb hq
  have u := ulp64_pos q
  have h1 : |round64 q - q| ≤ |n * ulp64 q - q| := by
    have h := roundEven_abs_sub_le (q / ulp64 q) n
    have e : ∀ x : ℚ, x * ulp64 q - q = (x - q / ulp64 q) * ulp64 q := fun x => by
      field_simp
    rw [round64_eq, e, e, abs_mul, abs_mul]
    gcongr
  refine h1.trans ?_
  rcases hn with ⟨h1, h2⟩ | ⟨h1, h2⟩
  · rw [abs_of_nonpos (by linarith), abs_of_nonpos (by linarith)]; linarith
  · rw [abs_of_nonneg (by linarith), abs_of_nonneg (by linarith)]; linarith

/-- The error of a rounding is at most half a unit. -/
theorem round64_error (q : ℚ) : |round64 q - q| ≤ ulp64 q / 2 := by
  have u := ulp64_pos q
  have e : (roundEven (q / ulp64 q) : ℚ) * ulp64 q - q = (roundEven (q / ulp64 q) - q / ulp64 q) * ulp64 q := by
    field_simp
  rw [round64_eq, e, abs_mul, abs_of_pos u]
  have := roundEven_abs_sub_le_half (q / ulp64 q)
  nlinarith

/-- The relative error of a rounding in the normal range is at most `2^-53`. -/
theorem round64_rel_error {q : ℚ} (hq : (2 : ℚ) ^ (-1022 : ℤ) ≤ |q|) : |round64 q - q| ≤ |q| * 2 ^ (-53 : ℤ) := by
  have h1 := round64_error q
  have h2 := ulp64_le_of_normal hq
  have h3 : |q| * (2 : ℚ) ^ (-53 : ℤ) = |q| * 2 ^ (-52 : ℤ) / 2 := by
    rw [show (-53 : ℤ) = -52 - 1 by norm_num, zpow_sub_one₀ (by norm_num : (2 : ℚ) ≠ 0)]; ring
  rw [h3]
  exact h1.trans (div_le_div_of_nonneg_right h2 (by norm_num))

theorem round64_nonneg {q : ℚ} (h : 0 ≤ q) : 0 ≤ round64 q := le_round64 isBinary64_zero h

/-! The remainder by a power of two, which `fmod8` and the waveform write take. -/

/-- A binary64 value less a multiple of `2^j` below it is a binary64 value. -/
theorem isBinary64_sub_floor {x : ℚ} (hx : IsBinary64 x) (h0 : 0 ≤ x) (j : ℕ) :
    IsBinary64 (x - ((2 ^ j * ⌊x / 2 ^ j⌋ : ℤ) : ℚ)) := by
  obtain ⟨m, e, hm, he, rfl⟩ := hx
  have two : (2 : ℚ) ≠ 0 := by norm_num
  have hj : (0 : ℚ) < 2 ^ j := by positivity
  by_cases hle : (j : ℤ) ≤ e
  · have hint : (m : ℚ) * 2 ^ e / 2 ^ j = ((m * 2 ^ (e - j).toNat : ℤ) : ℚ) := by
      push_cast
      rw [← zpow_natCast (2 : ℚ) (e - j).toNat, Int.toNat_of_nonneg (by omega), zpow_sub₀ two, zpow_natCast]
      ring
    rw [hint, Int.floor_intCast]
    have : (m : ℚ) * 2 ^ e - ((2 ^ j * (m * 2 ^ (e - j).toNat) : ℤ) : ℚ) = 0 := by
      rw [div_eq_iff hj.ne'] at hint
      rw [hint]; push_cast; ring
    rw [this]; exact isBinary64_zero
  · have hlt : e < j := not_le.mp hle
    set f : ℤ := ⌊(m : ℚ) * 2 ^ e / 2 ^ j⌋ with hf
    have hfl : (f : ℚ) ≤ (m : ℚ) * 2 ^ e / 2 ^ j := Int.floor_le _
    have hf0 : 0 ≤ f := Int.floor_nonneg.mpr (by positivity)
    have hval : (m : ℚ) * 2 ^ e - ((2 ^ j * f : ℤ) : ℚ) = ((m - f * 2 ^ (j - e).toNat : ℤ) : ℚ) * 2 ^ e := by
      push_cast
      rw [← zpow_natCast (2 : ℚ) (j - e).toNat, Int.toNat_of_nonneg (by omega), zpow_sub₀ two, zpow_natCast]
      have := (two_zpow_pos e).ne'
      field_simp
    refine ⟨m - f * 2 ^ (j - e).toNat, e, ?_, he, hval⟩
    have hge : 0 ≤ m - f * 2 ^ (j - e).toNat := by
      have h : (0 : ℚ) ≤ ((m - f * 2 ^ (j - e).toNat : ℤ) : ℚ) * 2 ^ e := by
        rw [← hval]
        have := (le_div_iff₀ hj).mp hfl
        push_cast; linarith
      exact_mod_cast nonneg_of_mul_nonneg_left h (two_zpow_pos e)
    have hpow : 0 ≤ f * 2 ^ (j - e).toNat := by positivity
    have hm' := abs_lt.mp hm
    rw [abs_of_nonneg hge]
    omega

theorem fmod8_eq (x : ℚ) : fmod8 x = x - 8 * ⌊x / 8⌋ := by simp [fmod8]

theorem fmod8_nonneg (x : ℚ) : 0 ≤ fmod8 x := by
  have := Int.floor_le (x / 8)
  rw [fmod8_eq]; linarith

theorem fmod8_lt (x : ℚ) : fmod8 x < 8 := by
  have := Int.lt_floor_add_one (x / 8)
  rw [fmod8_eq]; linarith

theorem isBinary64_fmod8 {x : ℚ} (hx : IsBinary64 x) (h0 : 0 ≤ x) : IsBinary64 (fmod8 x) := by
  have h := isBinary64_sub_floor hx h0 3
  rw [fmod8_eq]
  norm_num at h ⊢
  exact h

theorem isBinary64_fract {x : ℚ} (hx : IsBinary64 x) (h0 : 0 ≤ x) : IsBinary64 (x - ⌊x⌋) := by
  simpa using isBinary64_sub_floor hx h0 0

/-! Rounding the box-filter value. -/

theorem roundOut_nearest (r : ℚ) : roundOut .nearestTiesAway r = ⌊r + 1 / 2⌋ := by
  have f1 := Int.floor_le r
  have f2 := Int.lt_floor_add_one r
  simp only [roundOut, ratSub_eq, ratAdd_eq]
  split_ifs with h <;> symm <;> rw [Int.floor_eq_iff] <;> push_cast <;> constructor <;> linarith

theorem clamp12_toNat (n : ℤ) : (clamp12 n).toNat = (min (max n 0) 4095).toNat := by
  simp only [clamp12, BitVec.toNat_ofNat]
  apply Nat.mod_eq_of_lt
  omega

end Sys2Proof.Machine
end

