-- ==== Sys2Proof/Laws/Decode.lean ====
section
/-! SUPPORT. The fields of a word as numbers, and that a word is its fields. -/

namespace Sys2Proof

theorem kindField_toNat (t : Word19) : (kindField t).toNat = t.toNat / 2 ^ 16 % 2 ^ 3 := by
  simp [kindField, BitVec.extractLsb'_toNat, Nat.shiftRight_eq_div_pow]

theorem offsetField_toNat (t : Word19) : (offsetField t).toNat = t.toNat / 2 ^ 8 % 2 ^ 8 := by
  simp [offsetField, BitVec.extractLsb'_toNat, Nat.shiftRight_eq_div_pow]

theorem dataField_toNat (t : Word19) : (dataField t).toNat = t.toNat % 2 ^ 8 := by
  simp [dataField, BitVec.extractLsb'_toNat]

theorem packWord_toNat (k : BitVec 3) (o d : Byte) :
    (packWord k o d).toNat = k.toNat * 2 ^ 16 + o.toNat * 2 ^ 8 + d.toNat := by
  have ho := o.isLt
  have hd := d.isLt
  rw [packWord, BitVec.toNat_append, BitVec.toNat_append, ← Nat.shiftLeft_add_eq_or_of_lt hd,
    ← Nat.shiftLeft_add_eq_or_of_lt ho, Nat.shiftLeft_eq, Nat.shiftLeft_eq]
  ring

@[simp] theorem kindField_packWord (k : BitVec 3) (o d : Byte) : kindField (packWord k o d) = k := by
  apply BitVec.eq_of_toNat_eq
  rw [kindField_toNat, packWord_toNat]
  omega

@[simp] theorem offsetField_packWord (k : BitVec 3) (o d : Byte) : offsetField (packWord k o d) = o := by
  apply BitVec.eq_of_toNat_eq
  rw [offsetField_toNat, packWord_toNat]
  omega

@[simp] theorem dataField_packWord (k : BitVec 3) (o d : Byte) : dataField (packWord k o d) = d := by
  apply BitVec.eq_of_toNat_eq
  rw [dataField_toNat, packWord_toNat]
  omega

theorem packWord_fields (t : Word19) : packWord (kindField t) (offsetField t) (dataField t) = t := by
  apply BitVec.eq_of_toNat_eq
  rw [packWord_toNat, kindField_toNat, offsetField_toNat, dataField_toNat]
  omega

end Sys2Proof
end

