-- ==== Sys2Proof/Laws/State.lean ====
section
/-! SUPPORT. One lemma per field per update, true by `rfl`: no proof over the machine unfolds a record update. -/

namespace Sys2Proof.Machine

open Sys2Proof

/-! The block's record. -/

@[simp] theorem ChannelState.setEnabled_enabled (c : ChannelState) (v : Bool) : (c.setEnabled v).enabled = v := rfl
@[simp] theorem ChannelState.setEnabled_manualLevel (c : ChannelState) (v : Bool) : (c.setEnabled v).manualLevel = c.manualLevel := rfl
@[simp] theorem ChannelState.setEnabled_waveformByte (c : ChannelState) (v : Bool) : (c.setEnabled v).waveformByte = c.waveformByte := rfl
@[simp] theorem ChannelState.setEnabled_rateLo (c : ChannelState) (v : Bool) : (c.setEnabled v).rateLo = c.rateLo := rfl
@[simp] theorem ChannelState.setEnabled_shiftPeriod (c : ChannelState) (v : Bool) : (c.setEnabled v).shiftPeriod = c.shiftPeriod := rfl
@[simp] theorem ChannelState.setEnabled_bitsPerSample (c : ChannelState) (v : Bool) : (c.setEnabled v).bitsPerSample = c.bitsPerSample := rfl
@[simp] theorem ChannelState.setEnabled_bsValid (c : ChannelState) (v : Bool) : (c.setEnabled v).bsValid = c.bsValid := rfl
@[simp] theorem ChannelState.setEnabled_bitCursor (c : ChannelState) (v : Bool) : (c.setEnabled v).bitCursor = c.bitCursor := rfl
@[simp] theorem ChannelState.setEnabled_sampleRate (c : ChannelState) (v : Bool) : (c.setEnabled v).sampleRate = c.sampleRate := rfl
@[simp] theorem ChannelState.setEnabled_cyclesPerSecond (c : ChannelState) (v : Bool) : (c.setEnabled v).cyclesPerSecond = c.cyclesPerSecond := rfl
@[simp] theorem ChannelState.setEnabled_initDone (c : ChannelState) (v : Bool) : (c.setEnabled v).initDone = c.initDone := rfl
@[simp] theorem ChannelState.setEnabled_fault (c : ChannelState) (v : Bool) : (c.setEnabled v).fault = c.fault := rfl

@[simp] theorem ChannelState.setManualLevel_enabled (c : ChannelState) (v : Bool) : (c.setManualLevel v).enabled = c.enabled := rfl
@[simp] theorem ChannelState.setManualLevel_manualLevel (c : ChannelState) (v : Bool) : (c.setManualLevel v).manualLevel = v := rfl
@[simp] theorem ChannelState.setManualLevel_waveformByte (c : ChannelState) (v : Bool) : (c.setManualLevel v).waveformByte = c.waveformByte := rfl
@[simp] theorem ChannelState.setManualLevel_rateLo (c : ChannelState) (v : Bool) : (c.setManualLevel v).rateLo = c.rateLo := rfl
@[simp] theorem ChannelState.setManualLevel_shiftPeriod (c : ChannelState) (v : Bool) : (c.setManualLevel v).shiftPeriod = c.shiftPeriod := rfl
@[simp] theorem ChannelState.setManualLevel_bitsPerSample (c : ChannelState) (v : Bool) : (c.setManualLevel v).bitsPerSample = c.bitsPerSample := rfl
@[simp] theorem ChannelState.setManualLevel_bsValid (c : ChannelState) (v : Bool) : (c.setManualLevel v).bsValid = c.bsValid := rfl
@[simp] theorem ChannelState.setManualLevel_bitCursor (c : ChannelState) (v : Bool) : (c.setManualLevel v).bitCursor = c.bitCursor := rfl
@[simp] theorem ChannelState.setManualLevel_sampleRate (c : ChannelState) (v : Bool) : (c.setManualLevel v).sampleRate = c.sampleRate := rfl
@[simp] theorem ChannelState.setManualLevel_cyclesPerSecond (c : ChannelState) (v : Bool) : (c.setManualLevel v).cyclesPerSecond = c.cyclesPerSecond := rfl
@[simp] theorem ChannelState.setManualLevel_initDone (c : ChannelState) (v : Bool) : (c.setManualLevel v).initDone = c.initDone := rfl
@[simp] theorem ChannelState.setManualLevel_fault (c : ChannelState) (v : Bool) : (c.setManualLevel v).fault = c.fault := rfl

@[simp] theorem ChannelState.setWaveformByte_enabled (c : ChannelState) (v : Byte) : (c.setWaveformByte v).enabled = c.enabled := rfl
@[simp] theorem ChannelState.setWaveformByte_manualLevel (c : ChannelState) (v : Byte) : (c.setWaveformByte v).manualLevel = c.manualLevel := rfl
@[simp] theorem ChannelState.setWaveformByte_waveformByte (c : ChannelState) (v : Byte) : (c.setWaveformByte v).waveformByte = v := rfl
@[simp] theorem ChannelState.setWaveformByte_rateLo (c : ChannelState) (v : Byte) : (c.setWaveformByte v).rateLo = c.rateLo := rfl
@[simp] theorem ChannelState.setWaveformByte_shiftPeriod (c : ChannelState) (v : Byte) : (c.setWaveformByte v).shiftPeriod = c.shiftPeriod := rfl
@[simp] theorem ChannelState.setWaveformByte_bitsPerSample (c : ChannelState) (v : Byte) : (c.setWaveformByte v).bitsPerSample = c.bitsPerSample := rfl
@[simp] theorem ChannelState.setWaveformByte_bsValid (c : ChannelState) (v : Byte) : (c.setWaveformByte v).bsValid = c.bsValid := rfl
@[simp] theorem ChannelState.setWaveformByte_bitCursor (c : ChannelState) (v : Byte) : (c.setWaveformByte v).bitCursor = c.bitCursor := rfl
@[simp] theorem ChannelState.setWaveformByte_sampleRate (c : ChannelState) (v : Byte) : (c.setWaveformByte v).sampleRate = c.sampleRate := rfl
@[simp] theorem ChannelState.setWaveformByte_cyclesPerSecond (c : ChannelState) (v : Byte) : (c.setWaveformByte v).cyclesPerSecond = c.cyclesPerSecond := rfl
@[simp] theorem ChannelState.setWaveformByte_initDone (c : ChannelState) (v : Byte) : (c.setWaveformByte v).initDone = c.initDone := rfl
@[simp] theorem ChannelState.setWaveformByte_fault (c : ChannelState) (v : Byte) : (c.setWaveformByte v).fault = c.fault := rfl

@[simp] theorem ChannelState.setRateLo_enabled (c : ChannelState) (v : Byte) : (c.setRateLo v).enabled = c.enabled := rfl
@[simp] theorem ChannelState.setRateLo_manualLevel (c : ChannelState) (v : Byte) : (c.setRateLo v).manualLevel = c.manualLevel := rfl
@[simp] theorem ChannelState.setRateLo_waveformByte (c : ChannelState) (v : Byte) : (c.setRateLo v).waveformByte = c.waveformByte := rfl
@[simp] theorem ChannelState.setRateLo_rateLo (c : ChannelState) (v : Byte) : (c.setRateLo v).rateLo = v := rfl
@[simp] theorem ChannelState.setRateLo_shiftPeriod (c : ChannelState) (v : Byte) : (c.setRateLo v).shiftPeriod = c.shiftPeriod := rfl
@[simp] theorem ChannelState.setRateLo_bitsPerSample (c : ChannelState) (v : Byte) : (c.setRateLo v).bitsPerSample = c.bitsPerSample := rfl
@[simp] theorem ChannelState.setRateLo_bsValid (c : ChannelState) (v : Byte) : (c.setRateLo v).bsValid = c.bsValid := rfl
@[simp] theorem ChannelState.setRateLo_bitCursor (c : ChannelState) (v : Byte) : (c.setRateLo v).bitCursor = c.bitCursor := rfl
@[simp] theorem ChannelState.setRateLo_sampleRate (c : ChannelState) (v : Byte) : (c.setRateLo v).sampleRate = c.sampleRate := rfl
@[simp] theorem ChannelState.setRateLo_cyclesPerSecond (c : ChannelState) (v : Byte) : (c.setRateLo v).cyclesPerSecond = c.cyclesPerSecond := rfl
@[simp] theorem ChannelState.setRateLo_initDone (c : ChannelState) (v : Byte) : (c.setRateLo v).initDone = c.initDone := rfl
@[simp] theorem ChannelState.setRateLo_fault (c : ChannelState) (v : Byte) : (c.setRateLo v).fault = c.fault := rfl

@[simp] theorem ChannelState.setShiftPeriod_enabled (c : ChannelState) (v : Period) : (c.setShiftPeriod v).enabled = c.enabled := rfl
@[simp] theorem ChannelState.setShiftPeriod_manualLevel (c : ChannelState) (v : Period) : (c.setShiftPeriod v).manualLevel = c.manualLevel := rfl
@[simp] theorem ChannelState.setShiftPeriod_waveformByte (c : ChannelState) (v : Period) : (c.setShiftPeriod v).waveformByte = c.waveformByte := rfl
@[simp] theorem ChannelState.setShiftPeriod_rateLo (c : ChannelState) (v : Period) : (c.setShiftPeriod v).rateLo = c.rateLo := rfl
@[simp] theorem ChannelState.setShiftPeriod_shiftPeriod (c : ChannelState) (v : Period) : (c.setShiftPeriod v).shiftPeriod = v := rfl
@[simp] theorem ChannelState.setShiftPeriod_bitsPerSample (c : ChannelState) (v : Period) : (c.setShiftPeriod v).bitsPerSample = c.bitsPerSample := rfl
@[simp] theorem ChannelState.setShiftPeriod_bsValid (c : ChannelState) (v : Period) : (c.setShiftPeriod v).bsValid = c.bsValid := rfl
@[simp] theorem ChannelState.setShiftPeriod_bitCursor (c : ChannelState) (v : Period) : (c.setShiftPeriod v).bitCursor = c.bitCursor := rfl
@[simp] theorem ChannelState.setShiftPeriod_sampleRate (c : ChannelState) (v : Period) : (c.setShiftPeriod v).sampleRate = c.sampleRate := rfl
@[simp] theorem ChannelState.setShiftPeriod_cyclesPerSecond (c : ChannelState) (v : Period) : (c.setShiftPeriod v).cyclesPerSecond = c.cyclesPerSecond := rfl
@[simp] theorem ChannelState.setShiftPeriod_initDone (c : ChannelState) (v : Period) : (c.setShiftPeriod v).initDone = c.initDone := rfl
@[simp] theorem ChannelState.setShiftPeriod_fault (c : ChannelState) (v : Period) : (c.setShiftPeriod v).fault = c.fault := rfl

@[simp] theorem ChannelState.setRate_enabled (c : ChannelState) (v : ℚ) (k : Bool) : (c.setRate v k).enabled = c.enabled := rfl
@[simp] theorem ChannelState.setRate_manualLevel (c : ChannelState) (v : ℚ) (k : Bool) : (c.setRate v k).manualLevel = c.manualLevel := rfl
@[simp] theorem ChannelState.setRate_waveformByte (c : ChannelState) (v : ℚ) (k : Bool) : (c.setRate v k).waveformByte = c.waveformByte := rfl
@[simp] theorem ChannelState.setRate_rateLo (c : ChannelState) (v : ℚ) (k : Bool) : (c.setRate v k).rateLo = c.rateLo := rfl
@[simp] theorem ChannelState.setRate_shiftPeriod (c : ChannelState) (v : ℚ) (k : Bool) : (c.setRate v k).shiftPeriod = c.shiftPeriod := rfl
@[simp] theorem ChannelState.setRate_bitsPerSample (c : ChannelState) (v : ℚ) (k : Bool) : (c.setRate v k).bitsPerSample = v := rfl
@[simp] theorem ChannelState.setRate_bsValid (c : ChannelState) (v : ℚ) (k : Bool) : (c.setRate v k).bsValid = k := rfl
@[simp] theorem ChannelState.setRate_bitCursor (c : ChannelState) (v : ℚ) (k : Bool) : (c.setRate v k).bitCursor = c.bitCursor := rfl
@[simp] theorem ChannelState.setRate_sampleRate (c : ChannelState) (v : ℚ) (k : Bool) : (c.setRate v k).sampleRate = c.sampleRate := rfl
@[simp] theorem ChannelState.setRate_cyclesPerSecond (c : ChannelState) (v : ℚ) (k : Bool) : (c.setRate v k).cyclesPerSecond = c.cyclesPerSecond := rfl
@[simp] theorem ChannelState.setRate_initDone (c : ChannelState) (v : ℚ) (k : Bool) : (c.setRate v k).initDone = c.initDone := rfl
@[simp] theorem ChannelState.setRate_fault (c : ChannelState) (v : ℚ) (k : Bool) : (c.setRate v k).fault = c.fault := rfl

@[simp] theorem ChannelState.setBitCursor_enabled (c : ChannelState) (v : ℚ) : (c.setBitCursor v).enabled = c.enabled := rfl
@[simp] theorem ChannelState.setBitCursor_manualLevel (c : ChannelState) (v : ℚ) : (c.setBitCursor v).manualLevel = c.manualLevel := rfl
@[simp] theorem ChannelState.setBitCursor_waveformByte (c : ChannelState) (v : ℚ) : (c.setBitCursor v).waveformByte = c.waveformByte := rfl
@[simp] theorem ChannelState.setBitCursor_rateLo (c : ChannelState) (v : ℚ) : (c.setBitCursor v).rateLo = c.rateLo := rfl
@[simp] theorem ChannelState.setBitCursor_shiftPeriod (c : ChannelState) (v : ℚ) : (c.setBitCursor v).shiftPeriod = c.shiftPeriod := rfl
@[simp] theorem ChannelState.setBitCursor_bitsPerSample (c : ChannelState) (v : ℚ) : (c.setBitCursor v).bitsPerSample = c.bitsPerSample := rfl
@[simp] theorem ChannelState.setBitCursor_bsValid (c : ChannelState) (v : ℚ) : (c.setBitCursor v).bsValid = c.bsValid := rfl
@[simp] theorem ChannelState.setBitCursor_bitCursor (c : ChannelState) (v : ℚ) : (c.setBitCursor v).bitCursor = v := rfl
@[simp] theorem ChannelState.setBitCursor_sampleRate (c : ChannelState) (v : ℚ) : (c.setBitCursor v).sampleRate = c.sampleRate := rfl
@[simp] theorem ChannelState.setBitCursor_cyclesPerSecond (c : ChannelState) (v : ℚ) : (c.setBitCursor v).cyclesPerSecond = c.cyclesPerSecond := rfl
@[simp] theorem ChannelState.setBitCursor_initDone (c : ChannelState) (v : ℚ) : (c.setBitCursor v).initDone = c.initDone := rfl
@[simp] theorem ChannelState.setBitCursor_fault (c : ChannelState) (v : ℚ) : (c.setBitCursor v).fault = c.fault := rfl

@[simp] theorem ChannelState.setFault_enabled (c : ChannelState) (v : FaultCause) : (c.setFault v).enabled = c.enabled := rfl
@[simp] theorem ChannelState.setFault_manualLevel (c : ChannelState) (v : FaultCause) : (c.setFault v).manualLevel = c.manualLevel := rfl
@[simp] theorem ChannelState.setFault_waveformByte (c : ChannelState) (v : FaultCause) : (c.setFault v).waveformByte = c.waveformByte := rfl
@[simp] theorem ChannelState.setFault_rateLo (c : ChannelState) (v : FaultCause) : (c.setFault v).rateLo = c.rateLo := rfl
@[simp] theorem ChannelState.setFault_shiftPeriod (c : ChannelState) (v : FaultCause) : (c.setFault v).shiftPeriod = c.shiftPeriod := rfl
@[simp] theorem ChannelState.setFault_bitsPerSample (c : ChannelState) (v : FaultCause) : (c.setFault v).bitsPerSample = c.bitsPerSample := rfl
@[simp] theorem ChannelState.setFault_bsValid (c : ChannelState) (v : FaultCause) : (c.setFault v).bsValid = c.bsValid := rfl
@[simp] theorem ChannelState.setFault_bitCursor (c : ChannelState) (v : FaultCause) : (c.setFault v).bitCursor = c.bitCursor := rfl
@[simp] theorem ChannelState.setFault_sampleRate (c : ChannelState) (v : FaultCause) : (c.setFault v).sampleRate = c.sampleRate := rfl
@[simp] theorem ChannelState.setFault_cyclesPerSecond (c : ChannelState) (v : FaultCause) : (c.setFault v).cyclesPerSecond = c.cyclesPerSecond := rfl
@[simp] theorem ChannelState.setFault_initDone (c : ChannelState) (v : FaultCause) : (c.setFault v).initDone = c.initDone := rfl
@[simp] theorem ChannelState.setFault_fault (c : ChannelState) (v : FaultCause) : (c.setFault v).fault = v := rfl

/-! The machine. -/

@[simp] theorem State.setChan_chan (s : State) (v : ChannelState) : (s.setChan v).chan = v := rfl
@[simp] theorem State.setChan_side (s : State) (v : ChannelState) : (s.setChan v).side = s.side := rfl
@[simp] theorem State.setChan_buf (s : State) (v : ChannelState) : (s.setChan v).buf = s.buf := rfl
@[simp] theorem State.setChan_result (s : State) (v : ChannelState) : (s.setChan v).result = s.result := rfl
@[simp] theorem State.setChan_pending (s : State) (v : ChannelState) : (s.setChan v).pending = s.pending := rfl

@[simp] theorem State.setBuf_chan (s : State) (v : HostBuffer) : (s.setBuf v).chan = s.chan := rfl
@[simp] theorem State.setBuf_side (s : State) (v : HostBuffer) : (s.setBuf v).side = s.side := rfl
@[simp] theorem State.setBuf_buf (s : State) (v : HostBuffer) : (s.setBuf v).buf = v := rfl
@[simp] theorem State.setBuf_result (s : State) (v : HostBuffer) : (s.setBuf v).result = s.result := rfl
@[simp] theorem State.setBuf_pending (s : State) (v : HostBuffer) : (s.setBuf v).pending = s.pending := rfl

@[simp] theorem State.respond_chan (s : State) (v : Result) : (s.respond v).chan = s.chan := rfl
@[simp] theorem State.respond_side (s : State) (v : Result) : (s.respond v).side = s.side := rfl
@[simp] theorem State.respond_buf (s : State) (v : Result) : (s.respond v).buf = s.buf := rfl
@[simp] theorem State.respond_result (s : State) (v : Result) : (s.respond v).result = v := rfl
@[simp] theorem State.respond_pending (s : State) (v : Result) : (s.respond v).pending = s.pending := rfl

@[simp] theorem State.accept_chan (s : State) (r : Request) (rest : List Request) : (s.accept r rest).chan = s.chan := rfl
@[simp] theorem State.accept_side (s : State) (r : Request) (rest : List Request) : (s.accept r rest).side = r.side := rfl
@[simp] theorem State.accept_buf (s : State) (r : Request) (rest : List Request) : (s.accept r rest).buf = r.buf.getD s.buf := rfl
@[simp] theorem State.accept_result (s : State) (r : Request) (rest : List Request) : (s.accept r rest).result = s.result := rfl
@[simp] theorem State.accept_pending (s : State) (r : Request) (rest : List Request) : (s.accept r rest).pending = rest := rfl

@[simp] theorem State.issue_chan (s : State) (r : Request) : (s.issue r).chan = s.chan := rfl
@[simp] theorem State.issue_side (s : State) (r : Request) : (s.issue r).side = s.side := rfl
@[simp] theorem State.issue_buf (s : State) (r : Request) : (s.issue r).buf = s.buf := rfl
@[simp] theorem State.issue_result (s : State) (r : Request) : (s.issue r).result = s.result := rfl
@[simp] theorem State.issue_pending (s : State) (r : Request) : (s.issue r).pending = s.pending ++ [r] := rfl

@[simp] theorem State.raiseFault_chan (s : State) (c : FaultCause) : (s.raiseFault c).chan = s.chan.setFault c := rfl
@[simp] theorem State.raiseFault_side (s : State) (c : FaultCause) : (s.raiseFault c).side = s.side := rfl
@[simp] theorem State.raiseFault_buf (s : State) (c : FaultCause) : (s.raiseFault c).buf = s.buf := rfl
@[simp] theorem State.raiseFault_result (s : State) (c : FaultCause) : (s.raiseFault c).result = .none := rfl
@[simp] theorem State.raiseFault_pending (s : State) (c : FaultCause) : (s.raiseFault c).pending = s.pending := rfl

end Sys2Proof.Machine
end

