-- ==== Sys2Proof/Laws/Ops.lean ====
section
/-! SUPPORT. The shared operations: when a gated transaction goes on and what it then answers, and the host buffer's
reads, writes and lengths. -/

namespace Sys2Proof.Machine

open Sys2Proof

/-! The checks every transaction makes first. -/

@[simp] theorem whenRunning_of_none {s : State} (h : s.chan.fault = .none) (k : Outcome) : s.whenRunning k = k := by
  simp [State.whenRunning, h]

theorem whenRunning_of_faulted {s : State} (h : s.Faulted) (k : Outcome) :
    s.whenRunning k = .fault (.halted s.chan.fault) := by
  unfold State.Faulted at h
  unfold State.whenRunning
  cases hf : s.chan.fault <;> simp_all

/-- All that `whenRunning` can answer with a next state. -/
theorem whenRunning_next {s t : State} {k : Outcome} (h : s.whenRunning k = .next t) :
    s.chan.fault = .none ∧ k = .next t := by
  unfold State.whenRunning at h
  cases hf : s.chan.fault <;> simp_all

@[simp] theorem whenReady_of_ready {s : State} (h : s.Ready) (k : Outcome) : s.whenReady k = k := by
  simp [State.whenReady, h.1, h.2]

theorem whenReady_of_faulted {s : State} (h : s.Faulted) (k : Outcome) :
    s.whenReady k = .fault (.halted s.chan.fault) := whenRunning_of_faulted h _

theorem whenReady_of_not_initDone {s : State} (hf : s.chan.fault = .none) (hi : s.chan.initDone = false)
    (k : Outcome) : s.whenReady k = .refused .preInit := by
  simp [State.whenReady, hf, hi]

/-- All that `whenReady` can answer with a next state. -/
theorem whenReady_next {s t : State} {k : Outcome} (h : s.whenReady k = .next t) : s.Ready ∧ k = .next t := by
  obtain ⟨hf, hk⟩ := whenRunning_next h
  cases hi : s.chan.initDone
  · simp [hi] at hk
  · exact ⟨⟨hi, hf⟩, by simpa [hi] using hk⟩

theorem refuseReserved_ne_next (s t : State) : s.refuseReserved ≠ .next t := fun h => by
  have := (whenReady_next h).2
  simp at this

/-! The host buffer. -/

@[simp] theorem length_bufWrite (b : HostBuffer) (k : Nat) (v : Elem) : (bufWrite b k v).length = b.length := by
  simp [bufWrite]

theorem bufRead_bufWrite_self {b : HostBuffer} {k : Nat} (h : k < b.length) (v : Elem) :
    bufRead (bufWrite b k v) k = v := by
  simp [bufRead, bufWrite, h]

theorem bufRead_bufWrite_ne {k j : Nat} (h : k ≠ j) (b : HostBuffer) (v : Elem) :
    bufRead (bufWrite b k v) j = bufRead b j := by
  simp [bufRead, bufWrite, List.getElem?_set_ne h]

@[simp] theorem length_mixAt (b : HostBuffer) (k : Nat) (v : Sample) : (mixAt b k v).length = b.length := by
  simp [mixAt]

@[simp] theorem length_fanOut (b : HostBuffer) (outch f : Nat) (v : Sample) (n : Nat) :
    (fanOut b outch f v n).length = b.length := by
  induction n with
  | zero => rfl
  | succ n ih => simp [fanOut, ih]

/-- An element that is none of the frame's first `n` channels reads as before. -/
theorem bufRead_fanOut_other {b : HostBuffer} {outch f j : Nat} {v : Sample} {n : Nat}
    (h : ∀ c < n, j ≠ frameIndex outch f c) : bufRead (fanOut b outch f v n) j = bufRead b j := by
  induction n with
  | zero => rfl
  | succ n ih =>
    rw [fanOut, mixAt, bufRead_bufWrite_ne (h n (by omega)).symm, ih fun c hc => h c (by omega)]

/-- Each of the frame's first `n` channels holds its old element mixed with the sample, once. -/
theorem bufRead_fanOut {b : HostBuffer} {outch f c : Nat} {v : Sample} {n : Nat} (hc : c < n)
    (hlen : frameIndex outch f c < b.length) :
    bufRead (fanOut b outch f v n) (frameIndex outch f c) =
      Config.mix (bufRead b (frameIndex outch f c)) v := by
  induction n with
  | zero => omega
  | succ n ih =>
    by_cases h : c = n
    · subst h
      rw [fanOut, mixAt, bufRead_bufWrite_self (by simpa using hlen),
        bufRead_fanOut_other fun d hd => by simp [frameIndex]; omega]
    · rw [fanOut, mixAt, bufRead_bufWrite_ne (by simp [frameIndex]; omega), ih (by omega)]

end Sys2Proof.Machine
end

