-- ==== Sys2Proof/Laws/Sampler.lean ====
section
/-! SUPPORT. Slots repeat every 8, what the slot counts do, and what one call of the sampler can answer. -/

namespace Sys2Proof.Machine

open Sys2Proof

/-! This hardware's parameters (R7). -/

@[simp] theorem hw_arith : Config.hw.arith = .binary64 := rfl

@[simp] theorem hw_zeroPeriod : Config.hw.zeroPeriod = .silent := rfl

@[simp] theorem hw_dsRound : Config.hw.dsRound = .nearestTiesAway := rfl

/-! Slots and counts. -/

theorem slotBit_add_eight_mul (w : Byte) (i k : ℤ) : slotBit w (i + 8 * k) = slotBit w i := by
  simp [slotBit]

/-- A slot number in 0 to 7 names bit `7 - k` (R9). -/
theorem slotBit_of_lt {w : Byte} {k : ℕ} (h : k < 8) : slotBit w k = w.getLsbD (7 - k) := by
  have : ((k : ℤ) % 8).toNat = k := by omega
  simp [slotBit, this]

theorem countFrom_add (w : Byte) (lo : ℤ) (m n : ℕ) :
    countFrom w lo (m + n) = countFrom w lo m + countFrom w (lo + m) n := by
  induction n with
  | zero => rfl
  | succ n ih =>
    rw [← Nat.add_assoc, countFrom, countFrom, ih]
    push_cast
    rw [← add_assoc, ← add_assoc]

theorem countFrom_add_eight_mul (w : Byte) (lo k : ℤ) (n : ℕ) :
    countFrom w (lo + 8 * k) n = countFrom w lo n := by
  induction n with
  | zero => rfl
  | succ n ih =>
    rw [countFrom, countFrom, ih, show lo + 8 * k + n = lo + n + 8 * k by ring, slotBit_add_eight_mul]

/-- Any 8 slots in a row are the whole byte. -/
theorem countFrom_eight (w : Byte) (lo : ℤ) : countFrom w lo 8 = countFrom w 0 8 := by
  have shift : ∀ k : ℤ, slotBit w (k + 8) = slotBit w k := fun k => by
    simpa using slotBit_add_eight_mul w k 1
  have step : ∀ k : ℤ, countFrom w (k + 1) 8 = countFrom w k 8 := fun k => by
    have h1 : countFrom w k (1 + 8) = _ := countFrom_add w k 1 8
    have h2 : countFrom w k (8 + 1) = _ := countFrom_add w k 8 1
    have h3 : countFrom w (k + 8) 1 = countFrom w k 1 := by simp [countFrom, shift]
    push_cast at h1 h2
    rw [h3] at h2
    have : countFrom w k (1 + 8) = countFrom w k (8 + 1) := rfl
    omega
  induction lo using Int.induction_on with
  | zero => rfl
  | succ n ih => rw [step, ih]
  | pred n ih =>
    have := step (-n - 1)
    rw [sub_add_cancel] at this
    rw [← this, ih]

theorem countFrom_le (w : Byte) (lo : ℤ) (n : ℕ) : countFrom w lo n ≤ n := by
  induction n with
  | zero => simp [countFrom]
  | succ n ih =>
    have : (slotBit w (lo + n)).toNat ≤ 1 := Bool.toNat_le _
    simp only [countFrom]; omega

/-! One call of the sampler. -/

theorem sampleFrame_valid {c : ChannelState} (h : c.bsValid = true) (p : Params) :
    sampleFrame p c = .ok (sampleValue p c, c.setBitCursor (nextCursor p c)) := by
  simp [sampleFrame, h]

theorem sampleFrame_silent {c : ChannelState} (h : c.bsValid = false) :
    sampleFrame Config.hw c = .ok (silentValue c, c) := by
  simp [sampleFrame, h]

/-- On this hardware a sample never faults, and it writes at most the cursor. -/
theorem sampleFrame_hw (c : ChannelState) :
    ∃ v b, sampleFrame Config.hw c = .ok (v, c.setBitCursor b) ∧
      (b = if c.bsValid then nextCursor Config.hw c else c.bitCursor) := by
  cases h : c.bsValid
  · exact ⟨_, c.bitCursor, sampleFrame_silent h, by simp⟩
  · exact ⟨_, _, sampleFrame_valid h _, by simp⟩

theorem nextCursor_hw (c : ChannelState) :
    nextCursor Config.hw c = fmod8 (round64 (c.bitCursor + c.bitsPerSample)) := by
  simp [nextCursor, fadd_eq]

end Sys2Proof.Machine
end

