-- ==== Sys2Proof/Laws/Exec.lean ====
section
/-! SUPPORT. All that a transaction and a step can answer with a next state on this hardware, said once: the frames, the
whole-machine rules and the invariants cite these and unfold no meaning. -/

namespace Sys2Proof.Machine

open Sys2Proof

/-! The argument check of CALC (R143), and what INIT leaves alone (R140). -/

theorem calcArgsOk_iff {x : SideOperands} {b : HostBuffer} :
    calcArgsOk x b = true ↔ x.outch ≠ 0 ∧ x.frames.toNat * x.outch.toNat ≤ b.length := decide_eq_true_iff

theorem calcArgsOk_eq_false_iff {x : SideOperands} {b : HostBuffer} :
    calcArgsOk x b = false ↔ x.outch = 0 ∨ b.length < x.frames.toNat * x.outch.toNat := by
  rw [← Bool.not_eq_true, calcArgsOk_iff, not_and_or, not_not, not_le]

@[simp] theorem initialise_fault (A : Arith) (rate cps : Word32) (c : ChannelState) :
    (initialise A rate cps c).fault = c.fault := rfl

/-- CALC's loop never faults on this hardware, keeps the buffer's length, and writes at most the cursor. -/
theorem calcFrames_hw (o : ℕ) : ∀ (n f : ℕ) (c : ChannelState) (b : HostBuffer),
    ∃ (x : ℚ) (b' : HostBuffer), calcFrames Config.hw o n f c b = .ok (c.setBitCursor x, b') ∧ b'.length = b.length
  | 0, _, c, b => ⟨c.bitCursor, b, rfl, rfl⟩
  | n + 1, f, c, b => by
    obtain ⟨v, y, hy, -⟩ := sampleFrame_hw c
    obtain ⟨x, b', hx, hl⟩ := calcFrames_hw o n (f + 1) (c.setBitCursor y) (fanOut b o f v o)
    exact ⟨x, b', by simp only [calcFrames, hy, hx]; rfl, by simpa using hl⟩

/-- What a SAMPLE that answers a next state does: it writes the cursor and returns a sample. -/
theorem execSample_next {s t : State} (h : execSample s = .next t) :
    ∃ v, t = (s.setChan (s.chan.setBitCursor
      (if s.chan.bsValid then nextCursor Config.hw s.chan else s.chan.bitCursor))).respond (.sample v) := by
  obtain ⟨v, b, hb, rfl⟩ := sampleFrame_hw s.chan
  have := (whenReady_next h).2
  rw [hb] at this
  cases this
  exact ⟨v, rfl⟩

/-- What a CALC that answers a next state does. -/
theorem execCalc_next {s t : State} (h : execCalc s = .next t) :
    calcArgsOk s.side s.buf = true ∧ ∃ x b,
      calcFrames Config.hw s.side.outch.toNat s.side.frames.toNat 0 s.chan s.buf = .ok (s.chan.setBitCursor x, b) ∧
      b.length = s.buf.length ∧
      t = ((s.setChan (s.chan.setBitCursor x)).setBuf b).respond (.produced s.side.frames) := by
  have hk := (whenReady_next h).2
  obtain ⟨x, b, hx, hl⟩ := calcFrames_hw s.side.outch.toNat s.side.frames.toNat 0 s.chan s.buf
  split at hk
  · next ha =>
    rw [hx] at hk
    cases hk
    exact ⟨ha, x, b, hx, hl, rfl⟩
  · cases hk

/-- The next states a transaction can answer, one case per transaction. -/
inductive NextCase (s t : State) : Instr → Prop where
  | read (o) : t = s.respond (.rdata 0) → NextCase s t (.read o)
  | storeOnOff (d) : t = (s.setChan (s.chan.setEnabled (flagOf d))).respond .none → NextCase s t (.storeOnOff d)
  | storeWaveform (d) : t = (s.setChan (writeWaveform .binary64 d s.chan)).respond .none →
      NextCase s t (.storeWaveform d)
  | storeRateLo (d) : t = (s.setChan (s.chan.setRateLo d)).respond .none → NextCase s t (.storeRateLo d)
  | storeRateHi (d) : t = (s.setChan (recompute .binary64
      (s.chan.setShiftPeriod (periodOf d s.chan.rateLo)))).respond .none → NextCase s t (.storeRateHi d)
  | storeManual (d) : t = (s.setChan (s.chan.setManualLevel (flagOf d))).respond .none →
      NextCase s t (.storeManual d)
  | storeBad (o d) : t = s.raiseFault (.badOffset o d) → NextCase s t (.storeBad o d)
  | reset : t = (s.setChan (s.chan.setEnabled false)).respond .none → NextCase s t .reset
  | sample (v) : t = (s.setChan (s.chan.setBitCursor
      (if s.chan.bsValid then nextCursor Config.hw s.chan else s.chan.bitCursor))).respond (.sample v) →
      NextCase s t .sample
  | init : initArgsOk s.side = true →
      t = (s.setChan (initialise .binary64 s.side.rate s.side.cps s.chan)).respond (.ok 1) → NextCase s t .init
  | calcSamples (x b) : calcArgsOk s.side s.buf = true →
      calcFrames Config.hw s.side.outch.toNat s.side.frames.toNat 0 s.chan s.buf = .ok (s.chan.setBitCursor x, b) →
      b.length = s.buf.length →
      t = ((s.setChan (s.chan.setBitCursor x)).setBuf b).respond (.produced s.side.frames) →
      NextCase s t .calcSamples
  | qCycleBased : t = s.respond (.qresult 0) → NextCase s t .qCycleBased
  | qChannels : t = s.respond (.qresult 1) → NextCase s t .qChannels

/-- A transaction answers a next state in an unfaulted state only. -/
theorem exec_next_unfaulted {i : Instr} {s t : State} (h : exec i s = .next t) : s.chan.fault = .none := by
  cases i <;> first | exact (whenReady_next h).1.2 | exact (whenRunning_next h).1

/-- Every transaction but INIT answers a next state in a ready state only. -/
theorem exec_next_ready {i : Instr} {s t : State} (h : exec i s = .next t) (hi : i ≠ .init) : s.Ready := by
  cases i <;> first | contradiction | exact (whenReady_next h).1

/-- All that a transaction can answer with a next state. -/
theorem exec_next_cases {i : Instr} {s t : State} (h : exec i s = .next t) : NextCase s t i := by
  cases i
  case init =>
    have hk := (whenRunning_next h).2
    split at hk
    · next ha => cases hk; exact .init ha rfl
    · cases hk
  case sample =>
    obtain ⟨v, hv⟩ := execSample_next h
    exact .sample v hv
  case calcSamples =>
    obtain ⟨ha, x, b, hx, hl, ht⟩ := execCalc_next h
    exact .calcSamples x b ha hx hl ht
  case storeRateHi d =>
    have hk := (whenReady_next h).2
    simp only [writeRateHi, hw_zeroPeriod, reduceCtorEq, and_false, if_false] at hk
    cases hk
    exact .storeRateHi d rfl
  all_goals
    have hk := (whenReady_next h).2
    cases hk
    constructor
    rfl

/-- All that a step can answer with a next state: nothing is pending and nothing changes, or the first pending
transaction's meaning answered it. -/
theorem step_next_cases {s t : State} (h : step s = .next t) :
    (s.pending = [] ∧ t = s) ∨
    ∃ r rest i, s.pending = r :: rest ∧ decode r.word = .ok i ∧ exec i (s.accept r rest) = .next t := by
  have hk := (whenRunning_next h).2
  split at hk
  · next hp => cases hk; exact .inl ⟨hp, rfl⟩
  · next r rest hp =>
    refine .inr ⟨r, rest, ?_⟩
    unfold runWord at hk
    split at hk
    · next i hd => exact ⟨i, hp, hd, hk⟩
    · exact absurd hk (refuseReserved_ne_next _ _)

end Sys2Proof.Machine
end

