-- ==== Sys2Proof/Laws/PerInstr.lean ====
section
/-! SUPPORT. Statements about every transaction as syntax, one lemma per constructor. -/

namespace Sys2Proof

/-- A packed word under a packed mask, field by field. -/
theorem packWord_and (k k' : BitVec 3) (o o' d d' : Byte) :
    packWord k o d &&& packWord k' o' d' = packWord (k &&& k') (o &&& o') (d &&& d') := by
  change (k ++ o ++ d) &&& (k' ++ o' ++ d') = (k &&& k') ++ (o &&& o') ++ (d &&& d')
  ext i hi
  simp only [BitVec.getElem_and, BitVec.getElem_append]
  split_ifs <;> rfl

theorem packWord_inj {k k' : BitVec 3} {o o' d d' : Byte} :
    packWord k o d = packWord k' o' d' ↔ k = k' ∧ o = o' ∧ d = d' := by
  refine ⟨fun h => ⟨?_, ?_, ?_⟩, by rintro ⟨rfl, rfl, rfl⟩; rfl⟩
  · simpa using congrArg kindField h
  · simpa using congrArg offsetField h
  · simpa using congrArg dataField h

/-- A row covers a packed word field by field. -/
theorem covers_packWord (r : Row) (k : BitVec 3) (o d : Byte) :
    r.covers (packWord k o d) = true ↔
      k &&& kindField r.mask = kindField r.bits ∧ o &&& offsetField r.mask = offsetField r.bits ∧
        d &&& dataField r.mask = dataField r.bits := by
  rw [Row.covers, beq_iff_eq, ← packWord_fields r.mask, ← packWord_fields r.bits, packWord_and, packWord_inj]
  simp

end Sys2Proof

namespace Sys2Proof.Laws.EncodingRow

open Sys2Proof

/-- A well-formed transaction's word is one of the words of a row of its own mnemonic (R70). -/
def Statement (i : Instr) : Prop :=
  i.wf = true → ∃ r ∈ opcodeTable, r.mnemonic = i.mnemonic ∧ r.covers (encode i) = true

/-- A row whose data bits are don't-care covers the store with that offset, whatever the data. -/
theorem covers_store {m : String} {off : Byte} (data : Byte) {bits : Word19}
    (hb : bits = packWord 1 off 0) : (Row.mk m bits 0x7FF00).covers (packWord 1 off data) = true := by
  subst hb
  rw [covers_packWord]
  refine ⟨?_, ?_, ?_⟩
  · rw [kindField_packWord]; exact (by decide : (1 : BitVec 3) &&& kindField 0x7FF00 = 1)
  · rw [offsetField_packWord, show offsetField (0x7FF00 : Word19) = BitVec.allOnes 8 by decide, BitVec.and_allOnes]
  · rw [dataField_packWord, show dataField (0x7FF00 : Word19) = 0 by decide]; simp

theorem read (offset : Byte) : Statement (.read offset) := fun _ =>
  ⟨⟨"READ", 0x00000, 0x70000⟩, by decide, rfl, by
    rw [encode, covers_packWord]
    exact ⟨by decide, by rw [show offsetField (0x70000 : Word19) = 0 by decide]; simp; decide, by decide⟩⟩

theorem storeOnOff (data : Byte) : Statement (.storeOnOff data) := fun _ =>
  ⟨⟨"STORE.ONOFF", 0x10000, 0x7FF00⟩, by decide, rfl, covers_store data (by decide)⟩

theorem storeWaveform (data : Byte) : Statement (.storeWaveform data) := fun _ =>
  ⟨⟨"STORE.WAVEFORM", 0x10100, 0x7FF00⟩, by decide, rfl, covers_store data (by decide)⟩

theorem storeRateLo (data : Byte) : Statement (.storeRateLo data) := fun _ =>
  ⟨⟨"STORE.RATE_LO", 0x10200, 0x7FF00⟩, by decide, rfl, covers_store data (by decide)⟩

theorem storeRateHi (data : Byte) : Statement (.storeRateHi data) := fun _ =>
  ⟨⟨"STORE.RATE_HI", 0x10300, 0x7FF00⟩, by decide, rfl, covers_store data (by decide)⟩

theorem storeManual (data : Byte) : Statement (.storeManual data) := fun _ =>
  ⟨⟨"STORE.MANUAL", 0x10400, 0x7FF00⟩, by decide, rfl, covers_store data (by decide)⟩

/-- The seven offset patterns cover offsets 5 to 255. -/
theorem storeBadRows_offsets : ∀ o : Byte, 5 ≤ o.toNat →
    ∃ r ∈ storeBadRows, o &&& offsetField r.mask = offsetField r.bits := by decide

theorem storeBad (offset data : Byte) : Statement (.storeBad offset data) := fun h => by
  have h5 : 5 ≤ offset.toNat := by simpa [Instr.wf] using h
  obtain ⟨r, hr, ho⟩ := storeBadRows_offsets offset h5
  have common : ∀ r ∈ storeBadRows, r ∈ opcodeTable ∧ r.mnemonic = "STORE.BAD" ∧
      (1 : BitVec 3) &&& kindField r.mask = kindField r.bits ∧ dataField r.mask = 0 ∧ dataField r.bits = 0 := by
    decide
  obtain ⟨h1, h2, h3, h4, h5⟩ := common r hr
  refine ⟨r, h1, h2, ?_⟩
  rw [encode, covers_packWord, h4, h5]
  exact ⟨h3, ho, by simp⟩

theorem reset : Statement .reset := fun _ => ⟨⟨"RESET", 0x20000, 0x7FFFF⟩, by decide, rfl, by decide⟩

theorem sample : Statement .sample := fun _ => ⟨⟨"SAMPLE", 0x30000, 0x7FFFF⟩, by decide, rfl, by decide⟩

theorem init : Statement .init := fun _ => ⟨⟨"INIT", 0x40000, 0x7FFFF⟩, by decide, rfl, by decide⟩

theorem calcSamples : Statement .calcSamples := fun _ => ⟨⟨"CALC", 0x50000, 0x7FFFF⟩, by decide, rfl, by decide⟩

theorem qCycleBased : Statement .qCycleBased := fun _ =>
  ⟨⟨"Q.CYCLEBASED", 0x60000, 0x7FFFF⟩, by decide, rfl, by decide⟩

theorem qChannels : Statement .qChannels := fun _ => ⟨⟨"Q.CHANNELS", 0x60100, 0x7FFFF⟩, by decide, rfl, by decide⟩

end Sys2Proof.Laws.EncodingRow
end

