-- ==== Sys2Proof/Tests/Slice0.lean ====
section
/-! SUPPORT. Tests: ill-formed terms, words written out from R60's layout, one step of each transaction with the results of
spec/95_test_vectors.md, and for every statement with hypotheses a state and operands that meet them. -/

namespace Sys2Proof.Tests

open Sys2Proof Sys2Proof.Machine Sys2Proof.Reference

/-! Well-formedness: STORE.BAD's offset is none of the five registers' (R65). -/

theorem test_wf_refuses_register_offsets : Instr.wf (.storeBad 0 7) = false ∧ Instr.wf (.storeBad 4 0xFF) = false := by
  decide

theorem test_wf_accepts_bad_offset : Instr.wf (.storeBad 5 0) = true ∧ Instr.wf (.storeBad 255 0) = true := by decide

/-! Decoding: KIND, OFFSET and DATA written out bit by bit (R60; the words of 95 §2.1). -/

theorem test_decode_read : decode 0b0000000001100000000 = .ok (.read 3) := by decide

theorem test_decode_read_ignores_data : decode 0b0001111111111111111 = .ok (.read 255) := by decide

theorem test_decode_onoff : decode 0b0010000000000000001 = .ok (.storeOnOff 1) := by decide

theorem test_decode_waveform : decode 0b0010000000111111111 = .ok (.storeWaveform 0xFF) := by decide

theorem test_decode_rate_lo : decode 0b0010000001000110100 = .ok (.storeRateLo 0x34) := by decide

theorem test_decode_rate_hi : decode 0b0010000001100010010 = .ok (.storeRateHi 0x12) := by decide

theorem test_decode_manual : decode 0b0010000010000000001 = .ok (.storeManual 1) := by decide

theorem test_decode_bad_low : decode 0b0010000010100000000 = .ok (.storeBad 5 0) := by decide

theorem test_decode_bad_high : decode 0b0011111111101111111 = .ok (.storeBad 255 0x7F) := by decide

theorem test_decode_reset : decode 0b0100000000000000000 = .ok .reset := by decide

theorem test_decode_sample : decode 0b0110000000000000000 = .ok .sample := by decide

theorem test_decode_init : decode 0b1000000000000000000 = .ok .init := by decide

theorem test_decode_calc : decode 0b1010000000000000000 = .ok .calcSamples := by decide

theorem test_decode_cycle_based : decode 0b1100000000000000000 = .ok .qCycleBased := by decide

theorem test_decode_channels : decode 0b1100000000100000000 = .ok .qChannels := by decide

theorem test_decode_reserved : decode 0x20001 = .error .reservedOperand ∧ decode 0x40100 = .error .reservedOperand ∧
    decode 0x60200 = .error .reservedQuery ∧ decode 0x60001 = .error .reservedQuery ∧
    decode 0x70000 = .error .reservedKind := by decide

theorem test_decode_table_word : decodeTableWord 24 0x10312 = some (.storeRateHi 0x12) ∧
    decodeTableWord 24 0x70000 = none ∧ decodeTableWord 24 0x80000 = none := by decide

/-! States for the tests. -/

/-- After INIT rate, cps, with the given waveform byte, cursor and flags. -/
def after (rate cps : Word32) (w : Byte) (cursor : ℚ) (on manual : Bool) : State :=
  let c := initialise .binary64 rate cps ChannelState.reset
  { State.reset with
    chan := (((c.setWaveformByte w).setBitCursor cursor).setEnabled on).setManualLevel manual }

/-- The same with the rate set directly. -/
def atRate (bs : ℚ) (w : Byte) (cursor : ℚ) (on manual : Bool) : State :=
  let s := after 8000 512000 w cursor on manual
  s.setChan (s.chan.setRate bs true)

/-- The state of an answer. -/
def nextOf : Outcome → Option State
  | .next s => some s
  | .fault _ => none
  | .refused _ => none

/-- What an answer returned, and the cursor after. -/
def sampled (o : Outcome) : Option (Result × ℚ) := (nextOf o).map (fun s => (s.result, s.chan.bitCursor))

/-- The refusal of an answer. -/
def refusalOf : Outcome → Option Refusal
  | .next _ => none
  | .fault _ => none
  | .refused r => some r

/-! INIT and the WaveformClock (95 §2.2, R140's example). -/

theorem test_init : (nextOf (exec .init { State.reset with side := SideOperands.presented })).map
    (fun s => (s.result, s.chan.bitsPerSample, s.chan.shiftPeriod, s.chan.rateLo, s.chan.bsValid)) =
    some (.ok 1, mkRat 6382652533121451 9007199254740992, 32, 0x20, true) := by decide

theorem test_init_zero_rate : refusalOf (exec .init { State.reset with side := { SideOperands.presented with rate := 0 } }) =
    some .badInitArg := by decide

theorem test_rate_lo_alone : (nextOf (exec (.storeRateLo 0x80) (after 8000 512000 0 0 false false))).map
    (fun s => (s.chan.rateLo, s.chan.shiftPeriod, s.chan.bitsPerSample)) = some (0x80, 32, 2) := by decide

theorem test_rate_hi_rounds : (nextOf (storeRateHiUnder Config.hw 0x12
    ((after 44100 1000000 0 0 false false).setChan ((after 44100 1000000 0 0 false false).chan.setRateLo 0x34)))).map
    (fun s => (s.chan.shiftPeriod, s.chan.bitsPerSample)) =
    some (4660, mkRat 5610159823104177 1152921504606846976) := by decide

theorem test_rate_hi_alone : (nextOf (exec (.storeRateHi 0x01) (after 8000 512000 0 0 false false))).map
    (fun s => s.chan.shiftPeriod) = some 288 := by decide

/-- Zero period, `SILENT`. -/
def zeroPeriodState : State :=
  let s := after 8000 512000 0xFF 2 true false
  s.setChan (((s.chan.setRateLo 0).setShiftPeriod 0).setRate 0 false)

theorem test_zero_period : (nextOf (exec (.storeRateHi 0)
    ((after 8000 512000 0xFF 2 true false).setChan ((after 8000 512000 0xFF 2 true false).chan.setRateLo 0)))).map
    (fun s => s.chan) = some zeroPeriodState.chan := by decide

theorem test_zero_period_ignored : (nextOf (storeRateHiUnder ⟨.binary64, .ignoreWrite, .truncate⟩ 0
    ((after 8000 512000 0xFF 2 true false).setChan ((after 8000 512000 0xFF 2 true false).chan.setRateLo 0)))).map
    (fun s => (s.chan.shiftPeriod, s.chan.bsValid)) = some (32, true) := by decide

theorem test_zero_period_sample : sampled (exec .sample zeroPeriodState) = some (.sample 0, 2) := by decide

theorem test_zero_period_fault : (nextOf (sampleUnder ⟨.binary64, .fault, .truncate⟩ zeroPeriodState)).map
    (fun s => (s.chan.fault, s.chan.bitCursor)) = some (.zeroPeriod, 2) := by decide

/-! The sampler (95 L1.3, L1.4, §2.3, §2.4, §2.5). -/

theorem test_exact_boundary : sampled (exec .sample (after 8000 256000 0xA5 2 true false)) = some (.sample 4095, 3) := by
  decide

theorem test_exact_straddles : sampled (exec .sample (after 8000 192000 0x40 (mkRat 3 4) true false)) =
    some (.sample 0, mkRat 3 2) := by decide

theorem test_box_tie : sampled (exec .sample (atRate 8 0xF0 0 true false)) = some (.sample 2048, 0) := by decide

theorem test_box_wraps : sampled (exec .sample (atRate (mkRat 5 2) 0xF0 (mkRat 25 4) true false)) =
    some (.sample 1229, mkRat 3 4) := by decide

theorem test_box_long_window : sampled (exec .sample (atRate 12 0x80 0 true false)) = some (.sample 683, 4) := by decide

theorem test_box_truncate : boxSample ⟨.binary64, .silent, .truncate⟩ 0 12 0x80 = 682 := by decide

theorem test_box_all_ones : boxSample Config.hw (mkRat 5854679515581645 4503599627370496) 4 0xFF = 4095 ∧
    boxSample ⟨.binary64, .silent, .truncate⟩ (mkRat 5854679515581645 4503599627370496) 4 0xFF = 4094 := by decide

theorem test_box_period_one :
    (nextOf (exec .sample (atRate (mkRat 6382652533121451 281474976710656) 0xC0 0 true false))).map
      (fun s => s.result) = some (.sample 1084) := by decide

theorem test_cursor_large_rate : fmod8 4294967295 = 7 ∧ fmod8 10 = 2 := by decide

theorem test_disabled_advances : sampled (exec .sample (after 8000 512000 0xCC 2 false false)) = some (.sample 0, 4) := by
  decide

theorem test_manual_level : sampled (exec .sample (after 8000 512000 0x00 0 false true)) = some (.sample 4095, 2) := by
  decide

/-! The adapter (95 §2.5, §2.6, §2.7). -/

theorem test_onoff_any_nonzero : (nextOf (exec (.storeOnOff 0x80) (after 8000 512000 0 3 false false))).map
    (fun s => (s.chan.enabled, s.chan.bitCursor)) = some (true, 3) := by decide

theorem test_manual_zero : (nextOf (exec (.storeManual 0) (after 8000 512000 0 0 false true))).map
    (fun s => s.chan.manualLevel) = some false := by decide

theorem test_waveform_cuts : (nextOf (exec (.storeWaveform 0x0F) (after 8000 512000 0 (mkRat 21 4) true false))).map
    (fun s => (s.chan.waveformByte, s.chan.bitCursor)) = some (0x0F, mkRat 1 4) := by decide

theorem test_read : (nextOf (exec (.read 7) (after 8000 512000 0xFF 0 true false))).map (fun s => s.result) =
    some (.rdata 0) := by decide

theorem test_reset_keeps_manual : (nextOf (exec .reset (after 8000 512000 0xF0 6 true true))).map
    (fun s => (s.chan.enabled, s.chan.manualLevel, s.chan.waveformByte, s.chan.bitCursor)) =
    some (false, true, 0xF0, 6) := by decide

theorem test_store_bad : (nextOf (exec (.storeBad 5 0xAB) (after 8000 512000 0 0 false false))).map
    (fun s => s.chan.fault) = some (.badOffset 5 0xAB) := by decide

theorem test_queries : (nextOf (exec .qCycleBased (after 8000 512000 0 0 false false))).map (fun s => s.result) =
    some (.qresult 0) ∧
    (nextOf (exec .qChannels (after 8000 512000 0 0 false false))).map (fun s => s.result) = some (.qresult 1) := by
  decide

theorem test_pre_init : refusalOf (exec (.storeOnOff 1) State.reset) = some .preInit := by decide

/-- A state with CALC's operands on the ports. -/
def calcState (frames outch : Word32) (b : HostBuffer) : State :=
  { after 8000 384000 0x55 0 true false with
    side := { SideOperands.zero with frames := frames, outch := outch }, buf := b }

/-- Program P2's first two frames, for every MIX. -/
theorem test_calc_fans_out : (nextOf (exec .calcSamples (calcState 2 2 [1, 2, 3, 4, 5]))).map
    (fun s => (s.buf, s.result, s.chan.bitCursor)) =
    some ([Config.mix 1 1365, Config.mix 2 1365, Config.mix 3 1365, Config.mix 4 1365, 5], .produced 2, 3) := by rfl

/-- A short buffer (95 §2.6), and `CALC 4, 0` under FAULT with `bsValid` false (95 §2.7). -/
theorem test_calc_refused : refusalOf (exec .calcSamples (calcState 4 2 [0, 0, 0, 0, 0, 0, 0])) = some .badCalcArg ∧
    refusalOf (calcUnder ⟨.binary64, .fault, .nearestTiesAway⟩
      { zeroPeriodState with side := { SideOperands.zero with frames := 4 } }) = some .badCalcArg := by decide

/-! Steps. -/

theorem test_fetch_word_runs : (nextOf (step (State.reset.withFetchWord 24 0x101FF))).map
    (fun s => (s.chan.waveformByte, s.pending)) = some (0xFF, []) := by decide

theorem test_fetch_word_init : (nextOf (step (State.reset.withFetchWord 24 0x40000))).map
    (fun s => (s.chan.initDone, s.chan.sampleRate)) = some (true, 44100) := by decide

theorem test_step_reserved : refusalOf (step (State.reset.withFetchWord 24 0x70000)) = some .reservedEncoding := by
  decide

/-! The assembler (R71). -/

theorem test_parse_store : parseLine "STORE RATE_HI, 0x12   ; high byte" = some [.store 3 0x12] := by decide

theorem test_parse_calc : parseLine "CALC 100, 0b10" = some [.calcSamples 100 2 1] := by decide

theorem test_parse_setrate : parseLine "SETRATE 0x1234" = some [.store 2 0x34, .store 3 0x12] := by decide

theorem test_parse_refuses : parseLine "STORE ONOFF, 256" = none ∧ parseLine "JUMP 3" = none := by decide

/-! Witnesses: for every statement with hypotheses, a state and operands that meet them together. -/

theorem isBinary64_nat (n : ℕ) (h : n < 2 ^ 53) : IsBinary64 (n : ℚ) := by
  have := isBinary64_intCast (n := (n : ℤ)) (by rw [abs_of_nonneg (by positivity)]; exact_mod_cast h)
  simpa using this

/-- The last binary64 value below 8. -/
def lastCursor : ℚ := (2 ^ 53 - 1) * (2 : ℚ) ^ (-50 : ℤ)

theorem isBinary64_lastCursor : IsBinary64 lastCursor := ⟨2 ^ 53 - 1, -50, by norm_num, by norm_num, by norm_num [lastCursor]⟩

theorem lastCursor_lt : lastCursor < 8 := by norm_num [lastCursor]

theorem after_ready (rate cps : Word32) (w : Byte) (cursor : ℚ) (on manual : Bool) :
    (after rate cps w cursor on manual).Ready := ⟨rfl, rfl⟩

theorem after_cursorOk {cursor : ℚ} (h0 : 0 ≤ cursor) (h8 : cursor < 8) (hb : IsBinary64 cursor) (rate cps : Word32)
    (w : Byte) (on manual : Bool) : CursorOk (after rate cps w cursor on manual).chan := ⟨h0, h8, hb⟩

theorem atRate_ready (bs : ℚ) (w : Byte) (cursor : ℚ) (on manual : Bool) : (atRate bs w cursor on manual).Ready :=
  ⟨rfl, rfl⟩

theorem after_inv : (after 8000 512000 0xF0 0 true false).Inv := by
  refine ⟨after_cursorOk le_rfl (by norm_num) isBinary64_zero _ _ _ _ _, ?_, fun _ => by decide,
    ⟨fun h => (by cases h), by decide, fun o d h => (by cases h)⟩⟩
  simp [RateOk, after, initialise, recompute, rateOf, bsValidOf, rateProduct, fdiv_eq]

/-- A request of a word, with the presented operands. -/
def req (t : Word19) : Request := presentWord t

/-- A ready state with one word pending. -/
def pendingState (t : Word19) : State := { after 8000 512000 0xF0 0 true false with pending := [req t] }

/-- A faulted state. -/
def faultedState : State := (after 8000 512000 0 0 false false).raiseFault (.badOffset 7 1)

theorem faultedState_faulted : faultedState.Faulted := fun h => by cases h

theorem witness_DecodeInvertsEncode : Instr.wf (.storeBad 255 0) = true ∧ Instr.wf (.read 255) = true := by decide

theorem witness_EncodeInvertsDecode : decode 0x0FFFF = .ok (.read 255) ∧ decode 0x10500 = .ok (.storeBad 5 0) := by
  decide

theorem witness_ReservedWordsAreRefused :
    ((pendingState 0x70000).Ready ∧ (pendingState 0x70000).pending = req 0x70000 :: [] ∧ IsReserved (req 0x70000).word) ∧
    IsReserved 0x50001 ∧ IsReserved 0x60200 ∧ ¬ IsReserved 0x60100 := by
  refine ⟨⟨⟨rfl, rfl⟩, rfl, .inl (by decide)⟩, .inr (.inl (by decide)), .inr (.inr (by decide)), ?_⟩
  unfold IsReserved
  decide

theorem witness_StepRunsThePendingTransaction : (pendingState 0x30000).chan.fault = .none ∧
    (pendingState 0x30000).pending = req 0x30000 :: [] ∧ decode (req 0x30000).word = .ok .sample ∧
    State.reset.chan.fault = .none ∧ State.reset.pending = [] := by decide

theorem witness_OnlyInitRunsBeforeInit :
    let s : State := { State.reset with pending := [req 0x70000] }
    s.chan.fault = .none ∧ s.chan.initDone = false ∧ s.pending = req 0x70000 :: [] ∧
      decode (req 0x70000).word ≠ .ok .init ∧ Instr.reset ≠ .init := by decide

theorem witness_InitEstablishesInitialState :
    let s : State := { State.reset with side := SideOperands.presented }
    s.chan.fault = .none ∧ s.side.rate ≠ 0 ∧ s.side.cps ≠ 0 ∧ (State.reset.side.rate = 0 ∨ State.reset.side.cps = 0) := by
  decide

theorem witness_SecondInitForgetsEverything :
    let s : State := { State.reset with side := SideOperands.presented }
    let s' : State := { after 8000 512000 0xFF 3 true true with side := SideOperands.presented }
    s.chan.fault = .none ∧ s'.chan.fault = .none ∧ s.side.rate = s'.side.rate ∧ s.side.cps = s'.side.cps ∧
      s.side.rate ≠ 0 ∧ s.side.cps ≠ 0 := by decide

/-- For every statement whose one hypothesis is a ready state: READ, the stores, RESET, the queries, CALC's refusal. -/
theorem witness_ready : (after 44100 1000000 0x80 0 false false).Ready := after_ready _ _ _ _ _ _

theorem witness_StoreManualWritesManualLevelOnly :
    (after 8000 512000 0xF0 0 true false).Ready ∧ (after 8000 512000 0xF0 0 true false).chan.enabled = true :=
  ⟨after_ready _ _ _ _ _ _, rfl⟩

theorem witness_WaveformWriteKeepsCursorFraction :
    (after 8000 512000 0 lastCursor true false).Ready ∧ CursorOk (after 8000 512000 0 lastCursor true false).chan ∧
    CursorOk (after 8000 512000 0 0 true false).chan ∧ (after 8000 512000 0 0 true false).chan.bitCursor < 1 :=
  ⟨after_ready _ _ _ _ _ _,
   after_cursorOk (by norm_num [lastCursor]) lastCursor_lt isBinary64_lastCursor _ _ _ _ _,
   after_cursorOk le_rfl (by norm_num) isBinary64_zero _ _ _ _ _, by show (0 : ℚ) < 1; norm_num⟩

theorem witness_StoreBadRaisesBadOffset : kindField 0x10500 = 1 ∧ 5 ≤ (offsetField 0x10500).toNat := by decide

theorem witness_FaultsArePreciseAndTerminal :
    (∃ s t : State, exec (.storeBad 7 1) s = .next t ∧ t.Faulted) ∧ faultedState.Faulted :=
  ⟨⟨after 8000 512000 0 0 false false, faultedState, rfl, faultedState_faulted⟩, faultedState_faulted⟩

/-- For the two statements about faulted states. -/
theorem witness_NoTransactionClearsAFault : faultedState.Faulted := faultedState_faulted

theorem witness_SampleExactModeTestsTheStartSlot :
    let s := atRate 1 0x01 lastCursor true false
    s.Ready ∧ s.chan.bsValid = true ∧ s.chan.enabled = true ∧ s.chan.bitsPerSample ≤ 1 ∧ 0 ≤ s.chan.bitCursor ∧
      s.chan.bitCursor < 8 :=
  ⟨atRate_ready _ _ _ _ _, rfl, rfl, le_rfl, by norm_num [atRate, after, lastCursor], lastCursor_lt⟩

theorem witness_SampleBoxModeIsTheBoxFilter :
    let s := atRate (1 + 2 ^ (-52 : ℤ)) 0x80 7 true false
    s.Ready ∧ s.chan.bsValid = true ∧ s.chan.enabled = true ∧ 1 < s.chan.bitsPerSample :=
  ⟨atRate_ready _ _ _ _ _, rfl, rfl, by show (1 : ℚ) < 1 + 2 ^ (-52 : ℤ); norm_num⟩

/-- Also for the statement on the cursor advance. -/
theorem witness_SampleDisabledGivesTheManualLevel :
    let s := atRate 2 0 0 false true
    s.Ready ∧ s.chan.bsValid = true ∧ s.chan.enabled = false := ⟨atRate_ready _ _ _ _ _, rfl, rfl⟩

theorem witness_ZeroPeriodIsSilentOnThisHardware :
    zeroPeriodState.Ready ∧ zeroPeriodState.chan.bsValid = false ∧ zeroPeriodState.chan.rateLo = 0 :=
  ⟨⟨rfl, rfl⟩, rfl, rfl⟩

theorem witness_ZeroPeriodFaultsUnderFaultPolicyOnly :
    let s : State := { zeroPeriodState with side := { SideOperands.zero with frames := 1, outch := 1 }, buf := [0] }
    s.Ready ∧ ZeroPeriodPolicy.fault = .fault ∧ s.chan.bsValid = false ∧ s.side.outch ≠ 0 ∧
      s.side.frames.toNat * s.side.outch.toNat ≤ s.buf.length ∧
      ((ZeroPeriodPolicy.silent ≠ .fault ∨ s.chan.bsValid = true) ∧ ∃ t, sampleUnder Config.hw s = .next t) :=
  ⟨⟨rfl, rfl⟩, rfl, rfl, by decide, by decide, .inl (by decide), _, rfl⟩

theorem witness_CalcIsRepeatedSampleMixedIntoEveryChannel :
    let s := calcState 2 2 [0, 0, 0, 0]
    s.Ready ∧ s.side.outch ≠ 0 ∧ s.side.frames.toNat * s.side.outch.toNat ≤ s.buf.length :=
  ⟨⟨rfl, rfl⟩, by decide, by decide⟩

theorem witness_CalcRefusesBadArguments :
    (calcState 4 2 [0, 0, 0, 0, 0, 0, 0]).Ready ∧
    (calcState 4 2 [0, 0, 0, 0, 0, 0, 0]).buf.length <
      (calcState 4 2 []).side.frames.toNat * (calcState 4 2 []).side.outch.toNat ∧
    (calcState 4 0 []).side.outch = 0 := ⟨⟨rfl, rfl⟩, by decide, by decide⟩

/-- The same with an invalid rate, where FAULT would fault. -/
theorem witness_CalcRefusesBadArguments_invalidRate :
    let s : State := { zeroPeriodState with side := { SideOperands.zero with frames := 4 } }
    s.Ready ∧ s.chan.bsValid = false ∧ s.side.outch = 0 := ⟨⟨rfl, rfl⟩, rfl, rfl⟩

/-- Arguments at the least length that is not refused. -/
theorem witness_CalcRefusesBadArguments_notRefused :
    let s := calcState 4 2 [0, 0, 0, 0, 0, 0, 0, 0]
    s.Ready ∧ s.side.outch ≠ 0 ∧ s.side.frames.toNat * s.side.outch.toNat = s.buf.length :=
  ⟨⟨rfl, rfl⟩, by decide, by decide⟩

/-- For the frame statements: transactions that answer a next state. -/
theorem witness_frames : (∃ t, exec .init (pendingState 0 |>.accept (req 0) []) = .next t) ∧
    (∃ t, exec (.storeRateHi 1) (pendingState 0) = .next t) ∧ (∃ t, exec (.storeOnOff 1) (pendingState 0) = .next t) ∧
    ∃ t, exec .calcSamples (calcState 2 2 [0, 0, 0, 0]) = .next t := ⟨⟨_, rfl⟩, ⟨_, rfl⟩, ⟨_, rfl⟩, ⟨_, rfl⟩⟩

theorem witness_RegisterWritesAreIdempotent :
    ∃ t, CursorOk (after 8000 512000 0xF0 0 true false).chan ∧
      exec (.storeWaveform 1) (after 8000 512000 0xF0 0 true false) = .next t :=
  ⟨_, after_cursorOk le_rfl (by norm_num) isBinary64_zero _ _ _ _ _, rfl⟩

theorem witness_StepKeepsTheInvariant : (pendingState 0x30000).Inv ∧ ∃ t, step (pendingState 0x30000) = .next t :=
  ⟨after_inv, _, rfl⟩

theorem witness_ReachableStatesMeetTheInvariant : Reachable (State.reset.issue (req 0x40000)) ∧
    ∃ t, step (State.reset.issue (req 0x40000)) = .next t ∧ Reachable t :=
  ⟨.issue _ _ .reset, _, rfl, .step (State.reset.issue (req 0x40000)) _ (.issue _ _ .reset) rfl⟩

theorem witness_CursorStaysInRange :
    ∃ t, CursorOk (after 8000 512000 0xF0 lastCursor true false).chan ∧
      exec (.storeWaveform 1) (after 8000 512000 0xF0 lastCursor true false) = .next t :=
  ⟨_, after_cursorOk (by norm_num [lastCursor]) lastCursor_lt isBinary64_lastCursor _ _ _ _ _, rfl⟩

theorem witness_ValidRateIsPositiveAndBounded :
    (after 8000 512000 0xF0 0 true false).Inv ∧ (after 8000 512000 0xF0 0 true false).chan.initDone = true ∧
      (after 8000 512000 0xF0 0 true false).chan.bsValid = true := ⟨after_inv, rfl, by decide⟩

theorem witness_ValidRateIsPositiveAndBounded_silent :
    zeroPeriodState.Inv ∧ zeroPeriodState.chan.initDone = true ∧ zeroPeriodState.chan.bsValid = false := by
  refine ⟨⟨⟨by show (0 : ℚ) ≤ 2; norm_num, by show (2 : ℚ) < 8; norm_num, isBinary64_nat 2 (by norm_num)⟩, ⟨rfl, rfl⟩,
    fun _ => by decide, ⟨fun h => (by cases h), by decide, fun o d h => (by cases h)⟩⟩, rfl, rfl⟩

theorem witness_RateOperandsAreExactInBinary64 : (0xFFFF : Period).toNat * (0xFFFFFFFF : Word32).toNat ≠ 0 := by decide

theorem witness_CursorReductionEqualsSubtractionLoop :
    IsBinary64 (16 : ℕ) ∧ (0 : ℚ) ≤ (16 : ℕ) ∧ ((16 : ℕ) : ℚ) < 2 ^ 53 ∧ ⌊((16 : ℕ) : ℚ) / 8⌋ ≤ (2 : ℕ) :=
  ⟨isBinary64_nat 16 (by norm_num), by norm_num, by norm_num, by norm_num⟩

/-- Also for the statement on a byte of ones. -/
theorem witness_BoxWindowIsWellFormed :
    (0 : ℚ) ≤ lastCursor ∧ lastCursor < 8 ∧ IsBinary64 lastCursor ∧ IsBinary64 (2 : ℕ) ∧ (1 : ℚ) < (2 : ℕ) ∧
      ((2 : ℕ) : ℚ) < 2 ^ 32 :=
  ⟨by norm_num [lastCursor], lastCursor_lt, isBinary64_lastCursor, isBinary64_nat 2 (by norm_num), by norm_num,
    by norm_num⟩

theorem witness_CountSetCountsTheSetSlots : (after 8000 512000 0xF0 0 true false).chan.enabled = true := rfl

theorem witness_BoxFilterIsTheMeanInExactArithmetic :
    (1 / 2 : ℚ) < 1 ∧ ((⌊(1 / 2 : ℚ)⌋ + 1 : ℤ) : ℚ) ≤ 1 := by norm_num

theorem witness_OutputRoundingIsNearestTiesUp : (4095 / 2 : ℚ) - ⌊(4095 / 2 : ℚ)⌋ = 1 / 2 := by
  have : ⌊(4095 / 2 : ℚ)⌋ = 2047 := by rw [Int.floor_eq_iff]; norm_num
  rw [this]; norm_num

/-- Also for the statement on the issuer. -/
theorem witness_EachAgentsOrderIsKept : (pendingState 0x60000).pending = req 0x60000 :: [] ∧
    (∃ t, step (pendingState 0x60000) = .next t) ∧ State.reset.pending = [] := ⟨rfl, ⟨_, rfl⟩, rfl⟩

theorem witness_ChannelIsSilentAfterInitAlone :
    ∃ t, exec .init { State.reset with side := SideOperands.presented } = .next t := ⟨_, rfl⟩

end Sys2Proof.Tests
end

section
/-! The scope family (spec/00_scope.md): the box filter of R14 in exact arithmetic (R12), and the rounding of R13. -/

namespace Sys2Proof.Machine

open Sys2Proof Sys2Proof.Reference

/-! COUNTSET's closed form (R113) counts the slots one by one. -/

theorem countFrom_eight_mul_add (w : Byte) (lo : ℤ) (m q : ℕ) :
    countFrom w lo (8 * q + m) = q * countFrom w 0 8 + countFrom w lo m := by
  induction q with
  | zero => simp
  | succ q ih =>
    calc countFrom w lo (8 * (q + 1) + m)
      _ = countFrom w lo (8 + (8 * q + m)) := by congr 1; ring
      _ = countFrom w lo 8 + countFrom w (lo + 8 * 1) (8 * q + m) := by rw [countFrom_add]; norm_num
      _ = countFrom w 0 8 + (q * countFrom w 0 8 + countFrom w lo m) := by
        rw [countFrom_eight, countFrom_add_eight_mul, ih]
      _ = (q + 1) * countFrom w 0 8 + countFrom w lo m := by ring

theorem countSet_eq_countFrom (w : Byte) (lo hi : ℤ) : countSet w lo hi = countFrom w lo (hi - lo).toNat := by
  conv_rhs => rw [← Nat.div_add_mod (hi - lo).toNat 8, countFrom_eight_mul_add]
  rfl

theorem countFrom_eq_sum (w : Byte) (lo : ℤ) (n : ℕ) :
    countFrom w lo n = ∑ j ∈ Finset.range n, (slotBit w (lo + j)).toNat := by
  induction n with
  | zero => rfl
  | succ n ih => rw [countFrom, Finset.sum_range_succ, ih]

/-! The box filter in exact arithmetic: the partial slot at the start, the `n` whole slots, the partial slot at the
end. -/

theorem boxCount_exact {s e : ℚ} {n : ℕ} (he : ⌊e⌋ = ⌊s⌋ + 1 + n) (w : Byte) :
    boxCount .exact s e w = (if slotBit w ⌊s⌋ then ⌊s⌋ + 1 - s else 0) + countFrom w (⌊s⌋ + 1) n +
      (if slotBit w ⌊e⌋ then e - ⌊e⌋ else 0) := by
  have hn : countSet w (⌊s⌋ + 1) ⌊e⌋ = countFrom w (⌊s⌋ + 1) n := by
    rw [countSet_eq_countFrom, he, add_sub_cancel_left, Int.toNat_natCast]
  simp only [boxCount, hn, fadd_eq, fsub_eq, arithRound_exact, toF_eq]
  push_cast
  split_ifs <;> ring

/-- The part of the window `[s, e)` over slot `i`. -/
def slotCover (s e : ℚ) (i : ℤ) : ℚ := min e (i + 1) - max s i

theorem slotCover_start {s e : ℚ} (h : ((⌊s⌋ + 1 : ℤ) : ℚ) ≤ e) : slotCover s e ⌊s⌋ = ⌊s⌋ + 1 - s := by
  push_cast at h
  rw [slotCover, min_eq_right h, max_eq_left (Int.floor_le s)]

theorem slotCover_whole {s e : ℚ} {i : ℤ} (hs : ⌊s⌋ + 1 ≤ i) (he : i + 1 ≤ ⌊e⌋) : slotCover s e i = 1 := by
  have hse : s ≤ i := (Int.lt_floor_add_one s).le.trans (by exact_mod_cast hs)
  have hie : (i : ℚ) + 1 ≤ e := by exact_mod_cast Int.le_floor.mp he
  rw [slotCover, min_eq_right hie, max_eq_right hse, add_sub_cancel_left]

theorem slotCover_end {s e : ℚ} (h : ⌊s⌋ + 1 ≤ ⌊e⌋) : slotCover s e ⌊e⌋ = e - ⌊e⌋ := by
  have hs : s ≤ ⌊e⌋ := (Int.lt_floor_add_one s).le.trans (by exact_mod_cast h)
  rw [slotCover, min_eq_left (Int.lt_floor_add_one e).le, max_eq_right hs]

/-- R112's count with partials, in exact arithmetic, is the covered part of the set slots. -/
theorem boxCount_exact_eq_sum {s e : ℚ} (h : ((⌊s⌋ + 1 : ℤ) : ℚ) ≤ e) (w : Byte) :
    boxCount .exact s e w = ∑ j ∈ Finset.range (⌊e⌋ + 1 - ⌊s⌋).toNat,
      if slotBit w (⌊s⌋ + j) then slotCover s e (⌊s⌋ + j) else 0 := by
  have hfl : ⌊s⌋ + 1 ≤ ⌊e⌋ := Int.le_floor.mpr h
  obtain ⟨n, hn⟩ := Int.le.dest hfl
  have whole : ∀ j ∈ Finset.range n,
      (if slotBit w (⌊s⌋ + (j + 1 : ℕ)) then slotCover s e (⌊s⌋ + (j + 1 : ℕ)) else 0) =
        ((slotBit w (⌊s⌋ + 1 + j)).toNat : ℚ) := fun j hj => by
    have hj := Finset.mem_range.mp hj
    rw [slotCover_whole (by omega) (by omega), Nat.cast_succ, add_comm (j : ℤ), ← add_assoc]
    cases slotBit w (⌊s⌋ + 1 + j) <;> simp
  have last : ⌊s⌋ + ((n + 1 : ℕ) : ℤ) = ⌊e⌋ := by push_cast; omega
  rw [show (⌊e⌋ + 1 - ⌊s⌋).toNat = n + 1 + 1 by omega, Finset.sum_range_succ, Finset.sum_range_succ',
    Finset.sum_congr rfl whole, last, slotCover_end hfl, Nat.cast_zero, add_zero, slotCover_start h,
    boxCount_exact hn.symm, countFrom_eq_sum]
  push_cast
  ring

theorem meanLevel_eq {s e : ℚ} (h : ((⌊s⌋ + 1 : ℤ) : ℚ) ≤ e) (w : Byte) :
    meanLevel s e w = boxCount .exact s e w / (e - s) := by
  rw [boxCount_exact_eq_sum h, meanLevel]
  simp [slotCover]

theorem boxRatio_exact (s e : ℚ) (w : Byte) : boxRatio .exact s e w = boxCount .exact s e w * 4095 / (e - s) := by
  simp [boxRatio, fdiv_eq, fmul_eq, fsub_eq]

/-- No more than the whole window counts (R116). -/
theorem boxCount_exact_mem {s e : ℚ} (h : ((⌊s⌋ + 1 : ℤ) : ℚ) ≤ e) (w : Byte) :
    0 ≤ boxCount .exact s e w ∧ boxCount .exact s e w ≤ e - s := by
  obtain ⟨n, hn⟩ := Int.le.dest (Int.le_floor.mpr h)
  have hlen : (⌊e⌋ : ℚ) = ⌊s⌋ + 1 + n := by exact_mod_cast hn.symm
  have hstart := (Int.lt_floor_add_one s).le
  have hend := Int.floor_le e
  have hcount : (countFrom w (⌊s⌋ + 1) n : ℚ) ≤ n := by exact_mod_cast countFrom_le w _ n
  have hcount0 : (0 : ℚ) ≤ countFrom w (⌊s⌋ + 1) n := Nat.cast_nonneg _
  rw [boxCount_exact hn.symm]
  split_ifs <;> constructor <;> linarith

theorem roundOut_truncate (r : ℚ) : roundOut .truncate r = ⌊r⌋ := rfl

/-- NEAREST_TIES_AWAY rounds as Mathlib's `round` does. -/
theorem roundOut_nearest_eq_round (r : ℚ) : roundOut .nearestTiesAway r = round r := by
  rw [roundOut_nearest, round_eq]

end Sys2Proof.Machine

namespace Sys2Proof.Proofs

open Sys2Proof Sys2Proof.Machine Sys2Proof.Reference

/-- Settles O44: the count with partials is the covered part of the set slots, and at most the window. -/
theorem boxFilterIsTheMeanInExactArithmetic : Obligations.BoxFilterIsTheMeanInExactArithmetic := by
  intro s e w hse he
  have hlen : 0 < e - s := sub_pos.mpr hse
  obtain ⟨hlow, hhigh⟩ := boxCount_exact_mem he w
  rw [meanLevel_eq he, boxRatio_exact]
  refine ⟨by ring, by positivity, ?_⟩
  rw [div_le_iff₀ hlen]
  linarith

/-- Settles O45: NEAREST_TIES_AWAY is `floor(r + 1/2)`, the library's `round`, which no integer beats. -/
theorem outputRoundingIsNearestTiesUp : Obligations.OutputRoundingIsNearestTiesUp := by
  refine ⟨fun r n => ?_, fun r hr => ?_, roundOut_truncate, fun n => ?_⟩
  · rw [roundOut_nearest_eq_round, abs_sub_comm, abs_sub_comm (n : ℚ)]
    exact round_le r n
  · have hhalf : r + 1 / 2 = ((⌊r⌋ + 1 : ℤ) : ℚ) := by push_cast; linarith
    rw [roundOut_nearest, hhalf, Int.floor_intCast]
  · rw [clamp12_toNat]
    omega

end Sys2Proof.Proofs
end

section
/-! The state family (spec/10_state.md): which transaction writes which field of the record (R20), and the machine's
invariant (R31, R33, R34) along every step. -/

namespace Sys2Proof.Machine

open Sys2Proof Sys2Proof.Reference

/-! The decoder gives STORE.BAD only the offsets that are no register's (R65). -/

theorem decodeStore_wf (offset data : Byte) : (decodeStore offset data).wf = true := by
  unfold decodeStore
  split
  case h_6 =>
    simp only [imp_false] at *
    exact decide_eq_true (p := 5 ≤ offset.toNat) (by omega)
  all_goals rfl

theorem decodePlain_ok {i j : Instr} {offset data : Byte} (h : decodePlain i offset data = .ok j) : j = i := by
  unfold decodePlain at h
  split at h <;> cases h
  rfl

theorem decodeQuery_ok {i : Instr} {offset data : Byte} (h : decodeQuery offset data = .ok i) :
    i = .qCycleBased ∨ i = .qChannels := by
  unfold decodeQuery at h
  split at h
  · cases h
  · split at h <;> cases h
    · exact .inl rfl
    · exact .inr rfl

/-- Every transaction the decoder gives is well formed (R65). -/
theorem decode_wf {t : Word19} {i : Instr} (h : decode t = .ok i) : i.wf = true := by
  unfold decode at h
  split at h
  case h_1 => cases h; rfl
  case h_2 => cases h; exact decodeStore_wf _ _
  case h_7 => obtain rfl | rfl := decodeQuery_ok h <;> rfl
  case h_8 => cases h
  all_goals rw [decodePlain_ok h]; rfl

/-! The rate (R34): RECOMPUTE establishes it, and what it says of the value. -/

theorem rateOk_recompute (c : ChannelState) : RateOk (recompute .binary64 c) := by
  refine ⟨rfl, ?_⟩
  simp [recompute, rateOf, fdiv_eq, rateProduct]

theorem RateOk.nonneg {c : ChannelState} (h : RateOk c) : 0 ≤ c.bitsPerSample := by
  rw [h.2]
  split_ifs
  · exact round64_nonneg (by positivity)
  · rfl

/-- `2^-48`, below every quotient of R87 that is not 0, is a binary64 value. -/
theorem isBinary64_two_pow_neg : IsBinary64 (1 / 2 ^ 48) := ⟨1, -48, by norm_num, by norm_num, by norm_num⟩

theorem round64_ratio_pos {n m : ℕ} (hn : 1 ≤ n) (hm : m ≠ 0) (hm' : m < 2 ^ 48) : 0 < round64 ((n : ℚ) / m) := by
  have hm0 : (0 : ℚ) < m := by exact_mod_cast Nat.pos_of_ne_zero hm
  have hle : (1 : ℚ) / 2 ^ 48 ≤ n / m := by
    gcongr
    · exact_mod_cast hn
    · exact_mod_cast hm'.le
  exact lt_of_lt_of_le (by norm_num) (le_round64 isBinary64_two_pow_neg hle)

theorem round64_ratio_lt {n m : ℕ} (hn : n < 2 ^ 32) (hm : m ≠ 0) : round64 ((n : ℚ) / m) < 2 ^ 32 := by
  have hm1 : (1 : ℚ) ≤ m := by exact_mod_cast Nat.pos_of_ne_zero hm
  have hn' : (n : ℚ) < 2 ^ 32 := by exact_mod_cast hn
  have hb : IsBinary64 (n : ℚ) := isBinary64_intCast (n := n) (by rw [Nat.abs_cast]; omega)
  exact (round64_le hb (div_le_self n.cast_nonneg hm1)).trans_lt hn'

theorem rateProduct_lt (period : Period) (rate : Word32) : period.toNat * rate.toNat < 2 ^ 48 :=
  calc period.toNat * rate.toNat
    _ < 2 ^ 16 * 2 ^ 32 := Nat.mul_lt_mul'' period.isLt rate.isLt
    _ = 2 ^ 48 := by norm_num

/-! The cursor (R33, R117, R134). -/

theorem cutCursor_binary64 {b : ℚ} (hb : IsBinary64 b) (h0 : 0 ≤ b) : cutCursor .binary64 b = Int.fract b := by
  simp only [cutCursor, fsub_eq, arithRound_binary64, toF_eq]
  exact round64_of_isBinary64 (isBinary64_fract hb h0)

theorem CursorOk.cut {c : ChannelState} (h : CursorOk c) :
    0 ≤ cutCursor .binary64 c.bitCursor ∧ cutCursor .binary64 c.bitCursor < 1 ∧
      IsBinary64 (cutCursor .binary64 c.bitCursor) := by
  obtain ⟨h0, -, hb⟩ := h
  rw [cutCursor_binary64 hb h0]
  exact ⟨Int.fract_nonneg _, Int.fract_lt_one _, isBinary64_fract hb h0⟩

theorem nextCursor_mem (c : ChannelState) : 0 ≤ nextCursor Config.hw c ∧ nextCursor Config.hw c < 8 := by
  rw [nextCursor_hw]
  exact ⟨fmod8_nonneg _, fmod8_lt _⟩

theorem isBinary64_nextCursor {c : ChannelState} (h0 : 0 ≤ c.bitCursor) (hr : 0 ≤ c.bitsPerSample) :
    IsBinary64 (nextCursor Config.hw c) := by
  rw [nextCursor_hw]
  exact isBinary64_fmod8 (isBinary64_round64 _) (round64_nonneg (add_nonneg h0 hr))

/-- What one sample keeps, CALC's loop of samples keeps. -/
theorem calcFrames_keeps {P : ChannelState → Prop} {p : Params}
    (hP : ∀ c v c', P c → sampleFrame p c = .ok (v, c') → P c') (o : ℕ) :
    ∀ (n f : ℕ) (c c' : ChannelState) (b b' : HostBuffer),
      P c → calcFrames p o n f c b = .ok (c', b') → P c'
  | 0, _, _, _, _, _, hc, h => by cases h; exact hc
  | n + 1, f, c, c', b, b', hc, h => by
    unfold calcFrames at h
    split at h
    · cases h
    · next v d hd => exact calcFrames_keeps hP o n (f + 1) d c' _ b' (hP c v d hc hd) h

/-- One sample writes at most the cursor, with the next one. -/
theorem sampleFrame_hw_ok {c c' : ChannelState} {v : Sample} (h : sampleFrame Config.hw c = .ok (v, c')) :
    c' = c.setBitCursor (if c.bsValid then nextCursor Config.hw c else c.bitCursor) := by
  obtain ⟨_, _, hb, rfl⟩ := sampleFrame_hw c
  cases hb.symm.trans h
  rfl

/-- A property of cursors that holds of 0 and of the cut cursor, and of the next cursor at the same rate whenever it
holds of the cursor, survives every transaction, CALC's frames included. -/
theorem exec_keeps_cursor {P : ℚ → Prop} {i : Instr} {s t : State} (h : exec i s = .next t) (hs : P s.chan.bitCursor)
    (hzero : P 0) (hcut : P (cutCursor .binary64 s.chan.bitCursor))
    (hnext : ∀ c : ChannelState, c.bitsPerSample = s.chan.bitsPerSample → P c.bitCursor → P (nextCursor Config.hw c)) :
    P t.chan.bitCursor := by
  have hsample : ∀ c : ChannelState, c.bitsPerSample = s.chan.bitsPerSample → P c.bitCursor →
      P (if c.bsValid then nextCursor Config.hw c else c.bitCursor) := fun c hr hc => by
    split_ifs
    · exact hnext c hr hc
    · exact hc
  cases exec_next_cases h
  case storeWaveform d ht => subst ht; exact hcut
  case init _ ht => subst ht; exact hzero
  case sample v ht => subst ht; exact hsample _ rfl hs
  case calcSamples x b _ hcalc _ ht =>
    subst ht
    refine (calcFrames_keeps (P := fun c => c.bitsPerSample = s.chan.bitsPerSample ∧ P c.bitCursor)
      (fun c v c' hc hv => ?_) _ _ _ _ _ _ _ ⟨rfl, hs⟩ hcalc).2
    obtain rfl := sampleFrame_hw_ok hv
    exact ⟨hc.1, hsample c hc.1 hc.2⟩
  all_goals
    rename_i ht
    subst ht
    exact hs

theorem exec_keeps_cursorOk {i : Instr} {s t : State} (h : exec i s = .next t) (hs : CursorOk s.chan)
    (hr : RateOk s.chan) : CursorOk t.chan := by
  obtain ⟨hcut0, hcut1, hcutb⟩ := hs.cut
  refine exec_keeps_cursor (P := fun b => 0 ≤ b ∧ b < 8 ∧ IsBinary64 b) h hs ⟨le_rfl, by norm_num, isBinary64_zero⟩
    ⟨hcut0, hcut1.trans (by norm_num), hcutb⟩ fun c hc hb => ?_
  obtain ⟨h0, h8⟩ := nextCursor_mem c
  exact ⟨h0, h8, isBinary64_nextCursor hb.1 (hc ▸ hr.nonneg)⟩

/-! The rest of the invariant over one transaction. -/

theorem exec_keeps_rateOk {i : Instr} {s t : State} (h : exec i s = .next t) (hs : RateOk s.chan) :
    RateOk t.chan := by
  cases exec_next_cases h
  case storeRateHi d ht => subst ht; exact rateOk_recompute _
  case init _ ht => subst ht; exact rateOk_recompute _
  all_goals
    rename_i ht
    subst ht
    exact hs

theorem initArgsOk_iff {x : SideOperands} : initArgsOk x = true ↔ 1 ≤ x.rate.toNat ∧ 1 ≤ x.cps.toNat := by
  simp only [initArgsOk, decide_eq_true_eq]
  bv_omega

theorem exec_keeps_configOk {i : Instr} {s t : State} (h : exec i s = .next t) (hs : ConfigOk s.chan) :
    ConfigOk t.chan := by
  cases exec_next_cases h
  case init ha ht => subst ht; exact fun _ => initArgsOk_iff.mp ha
  all_goals
    rename_i ht
    subst ht
    exact hs

/-- A transaction that answers a next state leaves an initialised block (R183). -/
theorem exec_next_initDone {i : Instr} {s t : State} (h : exec i s = .next t) : t.chan.initDone = true := by
  have hready := exec_next_ready h
  cases exec_next_cases h
  case init _ ht => subst ht; rfl
  all_goals
    rename_i ht
    subst ht
    exact (hready (by simp)).1

/-- STORE.BAD alone raises a fault on this hardware (R161, R162). -/
theorem exec_next_fault {i : Instr} {s t : State} (h : exec i s = .next t) :
    t.chan.fault = .none ∨ ∃ o d, i = .storeBad o d ∧ t.chan.fault = .badOffset o d := by
  have hs := exec_next_unfaulted h
  cases exec_next_cases h
  case storeBad o d ht => subst ht; exact .inr ⟨o, d, rfl, rfl⟩
  all_goals
    rename_i ht
    subst ht
    exact .inl hs

theorem exec_establishes_faultOk {i : Instr} {s t : State} (hi : i.wf = true) (h : exec i s = .next t) :
    FaultOk t.chan := by
  refine ⟨fun hn => absurd (exec_next_initDone h) (by simp [hn]), ?_⟩
  obtain hf | ⟨o, d, rfl, hf⟩ := exec_next_fault h
  · exact ⟨by simp [hf], by simp [hf]⟩
  · refine ⟨by simp [hf], fun o' d' ho => ?_⟩
    cases hf.symm.trans ho
    exact of_decide_eq_true hi

/-! The invariant. -/

theorem exec_keeps_inv {i : Instr} {s t : State} (hi : i.wf = true) (h : exec i s = .next t) (hs : s.Inv) : t.Inv := by
  obtain ⟨hcursor, hrate, hconfig, -⟩ := hs
  exact ⟨exec_keeps_cursorOk h hcursor hrate, exec_keeps_rateOk h hrate, exec_keeps_configOk h hconfig,
    exec_establishes_faultOk hi h⟩

theorem step_keeps_inv {s t : State} (hs : s.Inv) (h : step s = .next t) : t.Inv := by
  obtain ⟨-, rfl⟩ | ⟨r, rest, i, -, hdecode, hexec⟩ := step_next_cases h
  · exact hs
  · exact exec_keeps_inv (s := s.accept r rest) (decode_wf hdecode) hexec hs

theorem reset_inv : State.reset.Inv :=
  ⟨⟨le_rfl, by norm_num [State.reset, ChannelState.reset], isBinary64_zero⟩, ⟨rfl, rfl⟩, (nomatch ·),
    ⟨fun _ => rfl, by decide, fun _ _ h => nomatch h⟩⟩

theorem reachable_inv {s : State} (h : Reachable s) : s.Inv := by
  induction h with
  | reset => exact reset_inv
  | issue s r _ ih => exact ih
  | step s t _ hstep ih => exact step_keeps_inv ih hstep

theorem FaultOk.badOffset {c : ChannelState} (h : FaultOk c) (hf : c.fault ≠ .none) :
    ∃ o d : Byte, c.fault = .badOffset o d ∧ 5 ≤ o.toNat := by
  obtain ⟨-, hzero, hoffset⟩ := h
  cases hc : c.fault with
  | none => exact absurd hc hf
  | badOffset o d => exact ⟨o, d, rfl, hoffset o d hc⟩
  | zeroPeriod => exact absurd hc hzero

/-! The RATE_LO latch in SAMPLE and CALC (R32, R84): every stage commutes with writing it. -/

theorem sampleFrame_setRateLo (p : Params) (c : ChannelState) (v : Byte) :
    sampleFrame p (c.setRateLo v) = (sampleFrame p c).map fun r => (r.1, r.2.setRateLo v) := by
  cases h : c.bsValid
  · cases hp : p.zeroPeriod <;> simp [sampleFrame, h, hp] <;> rfl
  · rw [sampleFrame_valid h, sampleFrame_valid (c := c.setRateLo v) h]
    rfl

theorem calcFrames_setRateLo (p : Params) (o : ℕ) (v : Byte) : ∀ (n f : ℕ) (c : ChannelState) (b : HostBuffer),
    calcFrames p o n f (c.setRateLo v) b = (calcFrames p o n f c b).map fun r => (r.1.setRateLo v, r.2)
  | 0, _, _, _ => rfl
  | n + 1, f, c, b => by
    simp only [calcFrames, sampleFrame_setRateLo]
    cases h : sampleFrame p c with
    | error cause => rfl
    | ok r => exact calcFrames_setRateLo p o v n (f + 1) r.2 (fanOut b o f r.1 o)

@[simp] theorem withLatch_chan (s : State) (v : Byte) : (withLatch s v).chan = s.chan.setRateLo v := rfl
@[simp] theorem withLatch_side (s : State) (v : Byte) : (withLatch s v).side = s.side := rfl
@[simp] theorem withLatch_buf (s : State) (v : Byte) : (withLatch s v).buf = s.buf := rfl

/-- The first checks do not read the latch, and a change to the next state passes through them. -/
theorem whenReady_withLatch {s : State} {v : Byte} {k k' : Outcome} (h : k' = mapNext (fun t => withLatch t v) k) :
    (withLatch s v).whenReady k' = mapNext (fun t => withLatch t v) (s.whenReady k) := by
  by_cases hf : s.Faulted
  · rw [whenReady_of_faulted hf, whenReady_of_faulted (s := withLatch s v) hf]
    rfl
  have hn : s.chan.fault = .none := not_not.mp hf
  cases hi : s.chan.initDone
  · rw [whenReady_of_not_initDone hn hi, whenReady_of_not_initDone (s := withLatch s v) hn hi]
    rfl
  · rw [whenReady_of_ready ⟨hi, hn⟩, whenReady_of_ready (s := withLatch s v) ⟨hi, hn⟩, h]

theorem sampleUnder_withLatch (p : Params) (s : State) (v : Byte) :
    sampleUnder p (withLatch s v) = mapNext (fun t => withLatch t v) (sampleUnder p s) := by
  refine whenReady_withLatch ?_
  rw [withLatch_chan, sampleFrame_setRateLo]
  cases sampleFrame p s.chan <;> rfl

theorem calcUnder_withLatch (p : Params) (s : State) (v : Byte) :
    calcUnder p (withLatch s v) = mapNext (fun t => withLatch t v) (calcUnder p s) := by
  refine whenReady_withLatch ?_
  rw [withLatch_chan, withLatch_side, withLatch_buf, calcFrames_setRateLo]
  split_ifs
  · cases calcFrames p s.side.outch.toNat s.side.frames.toNat 0 s.chan s.buf <;> rfl
  · rfl

end Sys2Proof.Machine

namespace Sys2Proof.Proofs

open Sys2Proof Sys2Proof.Machine Sys2Proof.Reference

/-- Settles O35: a taken transaction is well formed, and each part of the invariant survives every transaction. -/
theorem stepKeepsTheInvariant : Obligations.StepKeepsTheInvariant := fun _ _ => step_keeps_inv

/-- Settles O31, by the next state of each transaction. -/
theorem eachFieldIsWrittenByItsTransactionsOnly : Obligations.EachFieldIsWrittenByItsTransactionsOnly := by
  intro i s t h
  cases exec_next_cases h
  case storeWaveform d ht => subst ht; simp [writeWaveform]
  case storeRateHi d ht => subst ht; simp [recompute]
  case init _ ht => subst ht; simp
  all_goals
    rename_i ht
    subst ht
    simp

/-- Settles O36, by induction on how the state is reached. -/
theorem reachableStatesMeetTheInvariant : Obligations.ReachableStatesMeetTheInvariant := by
  intro s h
  have hinv := reachable_inv h
  have ⟨_, _, _, hfault⟩ := hinv
  exact ⟨hinv, hfault.badOffset⟩

/-- Settles O37: a sample reduces the cursor modulo 8, a waveform write keeps its fraction. -/
theorem cursorStaysInRange : Obligations.CursorStaysInRange := by
  intro i s t hs h
  obtain ⟨hcut0, hcut1, -⟩ := hs.cut
  have hrange : 0 ≤ t.chan.bitCursor ∧ t.chan.bitCursor < 8 :=
    exec_keeps_cursor (P := fun b => 0 ≤ b ∧ b < 8) h ⟨hs.1, hs.2.1⟩ ⟨le_rfl, by norm_num⟩
      ⟨hcut0, hcut1.trans (by norm_num)⟩ fun c _ _ => nextCursor_mem c
  refine ⟨hrange.1, hrange.2, ?_⟩
  rintro ⟨d, rfl⟩
  cases exec_next_cases h with
  | storeWaveform _ ht => subst ht; exact hcut1

/-- Settles O38: the quotient lies between the binary64 values `2^-48` and `cyclesPerSecond`. -/
theorem validRateIsPositiveAndBounded : Obligations.ValidRateIsPositiveAndBounded := by
  rintro s ⟨-, ⟨hvalid, hrate⟩, hconfig, -⟩ hinit
  refine ⟨fun hv => ?_, fun hv => by simpa [hv] using hrate⟩
  have hm : s.chan.shiftPeriod.toNat * s.chan.sampleRate.toNat ≠ 0 := of_decide_eq_true (hvalid.symm.trans hv)
  rw [if_pos hv] at hrate
  refine ⟨hrate, ?_⟩
  rw [hrate]
  exact ⟨round64_ratio_pos (hconfig hinit).2 hm (rateProduct_lt _ _), isBinary64_round64 _,
    round64_ratio_lt s.chan.cyclesPerSecond.isLt hm⟩

/-- Settles O48: the latch passes through the checks, the sampler and CALC's loop untouched. -/
theorem latchIsInvisibleUntilRateHi : Obligations.LatchIsInvisibleUntilRateHi := fun s v =>
  ⟨sampleUnder_withLatch Config.hw s v, calcUnder_withLatch Config.hw s v⟩

/-- Settles O34. -/
theorem resetMeetsTheInvariant : Obligations.ResetMeetsTheInvariant := reset_inv

end Sys2Proof.Proofs
end

section
/-! The memory family (spec/20_memory.md): the buffer's frame (R40, R53), the period's byte order (R41), writing a
register twice (R47), and the order in which transactions are taken (R50). -/

namespace Sys2Proof.Machine

open Sys2Proof

/-! The frame of a transaction outside the record: the ports, the order and the host buffer. -/

theorem exec_next_side_pending {i : Instr} {s t : State} (h : exec i s = .next t) :
    t.side = s.side ∧ t.pending = s.pending := by
  cases exec_next_cases h
  all_goals
    rename_i ht
    subst ht
    exact ⟨rfl, rfl⟩

theorem exec_next_buf {i : Instr} {s t : State} (h : exec i s = .next t) (hi : i ≠ .calcSamples) : t.buf = s.buf := by
  cases exec_next_cases h
  case calcSamples => contradiction
  all_goals
    rename_i ht
    subst ht
    rfl

/-- CALC's loop over `n` frames from frame `f` on writes below element `(f + n) * OUTCH` only (R142). -/
theorem bufRead_calcFrames_above {p : Params} {o k : ℕ} :
    ∀ {n f : ℕ} {c c' : ChannelState} {b b' : HostBuffer},
      calcFrames p o n f c b = .ok (c', b') → (f + n) * o ≤ k → bufRead b' k = bufRead b k
  | 0, _, _, _, _, _, h, _ => by cases h; rfl
  | n + 1, f, c, _, b, _, h, hk => by
    unfold calcFrames at h
    split at h
    · cases h
    · next v _ _ =>
      have hrest : (f + 1 + n) * o ≤ k := by rwa [add_right_comm]
      have hframe : ∀ ch < o, k ≠ frameIndex o f ch := fun ch hch => by
        have : (f + 1) * o ≤ k := le_trans (Nat.mul_le_mul_right o (by omega)) hk
        rw [Nat.add_one_mul] at this
        simp only [frameIndex]
        omega
      rw [bufRead_calcFrames_above h hrest, bufRead_fanOut_other hframe]

/-- CALC keeps the buffer's length and every element from `FRAMES * OUTCH` on (R142, R143). -/
theorem execCalc_next_buf {s t : State} (h : execCalc s = .next t) :
    t.buf.length = s.buf.length ∧
      ∀ k, s.side.frames.toNat * s.side.outch.toNat ≤ k → bufRead t.buf k = bufRead s.buf k := by
  obtain ⟨-, _, _, hcalc, hlength, rfl⟩ := execCalc_next h
  exact ⟨hlength, fun k hk => bufRead_calcFrames_above hcalc (by rwa [zero_add])⟩

/-! The period's byte order (R41). -/

theorem periodOf_toNat (hi lo : Byte) : (periodOf hi lo).toNat = hi.toNat * 256 + lo.toNat := by
  rw [periodOf, BitVec.toNat_append, ← Nat.shiftLeft_add_eq_or_of_lt lo.isLt, Nat.shiftLeft_eq]

theorem writeRateHi_hw (data : Byte) (c : ChannelState) :
    writeRateHi Config.hw data c = recompute .binary64 (c.setShiftPeriod (periodOf data c.rateLo)) := by
  simp [writeRateHi]

/-! Writing a register twice (R47). -/

/-- Every transaction but STORE.BAD leaves a block that takes the next one. -/
theorem exec_next_leaves_ready {i : Instr} {s t : State} (h : exec i s = .next t) (hi : ∀ o d, i ≠ .storeBad o d) :
    t.Ready := by
  refine ⟨exec_next_initDone h, ?_⟩
  obtain hf | ⟨o, d, rfl, -⟩ := exec_next_fault h
  · exact hf
  · exact absurd rfl (hi o d)

/-- The shape of a register write and of RESET: a change `f` of the record and no result. -/
def writeRecord (f : ChannelState → ChannelState) (s : State) : Outcome :=
  s.whenReady (.next ((s.setChan (f s.chan)).respond .none))

/-- A change of the record that settles at once, done again where it was done, answers the same state. -/
theorem writeRecord_again {f : ChannelState → ChannelState} {s t : State} (h : writeRecord f s = .next t)
    (hf : f (f s.chan) = f s.chan) (ht : t.Ready) : writeRecord f t = .next t := by
  obtain ⟨-, hk⟩ := whenReady_next h
  cases hk
  rw [writeRecord, whenReady_of_ready ht, State.respond_chan, State.setChan_chan, hf]
  rfl

theorem cutCursor_idem {b : ℚ} (hb : IsBinary64 b) (h0 : 0 ≤ b) :
    cutCursor .binary64 (cutCursor .binary64 b) = cutCursor .binary64 b := by
  have hfract : IsBinary64 (Int.fract b) := isBinary64_fract hb h0
  rw [cutCursor_binary64 hb h0, cutCursor_binary64 hfract (Int.fract_nonneg b), Int.fract_fract]

theorem writeWaveform_idem {c : ChannelState} (h : CursorOk c) (data : Byte) :
    writeWaveform .binary64 data (writeWaveform .binary64 data c) = writeWaveform .binary64 data c := by
  obtain ⟨h0, -, hb⟩ := h
  simp only [writeWaveform, ChannelState.setBitCursor_bitCursor, cutCursor_idem hb h0]
  rfl

theorem writeRateHi_idem (data : Byte) (c : ChannelState) :
    writeRateHi Config.hw data (writeRateHi Config.hw data c) = writeRateHi Config.hw data c := by
  simp only [writeRateHi_hw]
  rfl

/-! Taking and issuing transactions (R50). -/

theorem step_of_pending {s : State} {r : Request} {rest : List Request} (hs : s.chan.fault = .none)
    (hp : s.pending = r :: rest) : step s = runWord r.word (s.accept r rest) := by
  simp [step, hs, hp]

theorem step_of_idle {s : State} (hs : s.chan.fault = .none) (hp : s.pending = []) : step s = .next s := by
  simp [step, hs, hp]

theorem runWord_of_decode {t : Word19} {i : Instr} (h : decode t = .ok i) (s : State) : runWord t s = exec i s := by
  simp [runWord, h]

/-- A step takes at most the first pending transaction, and leaves the others in their order. -/
theorem step_next_pending {s t : State} (h : step s = .next t) :
    ∃ taken : List Request, taken.length ≤ 1 ∧ s.pending = taken ++ t.pending := by
  obtain ⟨-, rfl⟩ | ⟨r, rest, i, hp, -, hexec⟩ := step_next_cases h
  · exact ⟨[], by simp, rfl⟩
  · exact ⟨[r], le_rfl, by rw [hp, (exec_next_side_pending hexec).2]; rfl⟩

theorem foldl_issue_pending (order : List Request) (s : State) :
    (order.foldl State.issue s).pending = s.pending ++ order := by
  induction order generalizing s with
  | nil => simp
  | cons r order ih => rw [List.foldl_cons, ih, State.issue_pending, List.append_assoc, List.singleton_append]

end Sys2Proof.Machine

namespace Sys2Proof.Proofs

open Sys2Proof Sys2Proof.Machine

/-- Settles O32: CALC's loop stays below `FRAMES * OUTCH`, and every other transaction keeps the whole buffer. -/
theorem onlyCalcTouchesTheBuffer : Obligations.OnlyCalcTouchesTheBuffer := by
  intro i s t h
  have hother : i ≠ .calcSamples → t.buf = s.buf := exec_next_buf h
  have hcalc : t.buf.length = s.buf.length ∧
      ∀ k, s.side.frames.toNat * s.side.outch.toNat ≤ k → bufRead t.buf k = bufRead s.buf k := by
    by_cases hi : i = .calcSamples
    · subst hi
      exact execCalc_next_buf h
    · simp [hother hi]
  exact ⟨fun hi => ⟨hother hi, by simp [hother hi]⟩, hcalc.1, hcalc.2, exec_next_side_pending h⟩

/-- Settles O33: each of these writes is a change of the record that settles at once. -/
theorem registerWritesAreIdempotent : Obligations.RegisterWritesAreIdempotent := by
  intro s t hcursor
  refine ⟨fun i hi h => ?_, fun i hi h => ?_⟩
  · have hready : t.Ready := exec_next_leaves_ready h (by rintro o d rfl; simp at hi)
    obtain rfl | ⟨d, rfl | rfl | rfl | rfl | rfl⟩ := hi
    · exact writeRecord_again (f := (·.setEnabled false)) h rfl hready
    · exact writeRecord_again (f := (·.setEnabled (flagOf d))) h rfl hready
    · exact writeRecord_again (f := writeWaveform .binary64 d) h (writeWaveform_idem hcursor d) hready
    · exact writeRecord_again (f := (·.setRateLo d)) h rfl hready
    · exact writeRecord_again (f := writeRateHi Config.hw d) h (writeRateHi_idem d s.chan) hready
    · exact writeRecord_again (f := (·.setManualLevel (flagOf d))) h rfl hready
  · obtain rfl | rfl | ⟨o, rfl⟩ := hi
    all_goals
      cases exec_next_cases h
      rename_i ht
      subst ht
      rfl

/-- Settles O46: the pending order loses its head at most, and what is issued goes to its end. -/
theorem eachAgentsOrderIsKept : Obligations.EachAgentsOrderIsKept := by
  refine ⟨fun s t a h => ?_, fun s r a => ?_, fun s order hs => ?_⟩
  · obtain ⟨taken, hlength, hp⟩ := step_next_pending h
    exact ⟨taken.filter (fun r => r.agent = a), (List.length_filter_le _ _).trans hlength, by
      rw [hp, List.filter_append]⟩
  · simp [List.filter_singleton]
  · rw [foldl_issue_pending, hs, List.nil_append]

/-- Settles O6. -/
theorem stepRunsThePendingTransaction : Obligations.StepRunsThePendingTransaction := by
  refine fun s hs => ⟨fun r rest i hp hd => ?_, step_of_idle hs⟩
  rw [step_of_pending hs hp, runWord_of_decode hd]
  rfl

/-- Settles O15: the high byte's write reads the latch that the low byte's write set. -/
theorem lowThenHighByteFormsThePeriod : Obligations.LowThenHighByteFormsThePeriod := by
  intro s lo hi hs
  have hlo : exec (.storeRateLo lo) s = .next ((s.setChan (s.chan.setRateLo lo)).respond .none) :=
    whenReady_of_ready hs _
  refine ⟨_, _, hlo, whenReady_of_ready (exec_next_leaves_ready hlo (by simp)) _, ?_⟩
  simp [writeRateHi_hw, recompute, periodOf_toNat]

end Sys2Proof.Proofs
end

section
/-! The encoding family (spec/30_encoding.md): decoder and encoder (R60 to R66), the opcode map (R70), the
pseudo-transactions (R72), and the side operands that no rule reads (R64). -/

namespace Sys2Proof

open Sys2Proof.Reference

/-! A word is its three fields (R60), so a fact about every word is one fact for each of the eight kinds (R61). -/

theorem word_cases {P : Word19 → Prop}
    (read : ∀ o d, P (packWord 0 o d)) (store : ∀ o d, P (packWord 1 o d))
    (reset : ∀ o d, P (packWord 2 o d)) (sample : ∀ o d, P (packWord 3 o d))
    (init : ∀ o d, P (packWord 4 o d)) (calcSamples : ∀ o d, P (packWord 5 o d))
    (query : ∀ o d, P (packWord 6 o d)) (reserved : ∀ o d, P (packWord 7 o d)) (t : Word19) : P t := by
  have kinds : ∀ k : BitVec 3, k = 0 ∨ k = 1 ∨ k = 2 ∨ k = 3 ∨ k = 4 ∨ k = 5 ∨ k = 6 ∨ k = 7 := by decide
  rw [← packWord_fields t]
  rcases kinds (kindField t) with h | h | h | h | h | h | h | h <;> rw [h]
  · exact read _ _
  · exact store _ _
  · exact reset _ _
  · exact sample _ _
  · exact init _ _
  · exact calcSamples _ _
  · exact query _ _
  · exact reserved _ _

/-! The decoder on a packed word, one equation per kind (R61). -/

theorem decode_packWord_read (o d : Byte) : decode (packWord 0 o d) = .ok (.read o) := by simp [decode]

theorem decode_packWord_store (o d : Byte) : decode (packWord 1 o d) = .ok (decodeStore o d) := by simp [decode]

theorem decode_packWord_reset (o d : Byte) : decode (packWord 2 o d) = decodePlain .reset o d := by simp [decode]

theorem decode_packWord_sample (o d : Byte) : decode (packWord 3 o d) = decodePlain .sample o d := by simp [decode]

theorem decode_packWord_init (o d : Byte) : decode (packWord 4 o d) = decodePlain .init o d := by simp [decode]

theorem decode_packWord_calcSamples (o d : Byte) : decode (packWord 5 o d) = decodePlain .calcSamples o d := by
  simp [decode]

theorem decode_packWord_query (o d : Byte) : decode (packWord 6 o d) = decodeQuery o d := by simp [decode]

theorem decode_packWord_reserved (o d : Byte) : decode (packWord 7 o d) = .error .reservedKind := by simp [decode]

/-! The three operand decoders (R62, R65, R66). -/

theorem decodeStore_bad {o : Byte} (h : 5 ≤ o.toNat) (d : Byte) : decodeStore o d = .storeBad o d := by
  unfold decodeStore
  split
  case h_6 => rfl
  all_goals omega

theorem encode_decodeStore (o d : Byte) : encode (decodeStore o d) = packWord 1 o d := by
  unfold decodeStore
  split
  case h_6 => rfl
  all_goals
    rename_i ho
    exact congrArg (packWord 1 · d) (BitVec.eq_of_toNat_eq ho.symm)

theorem decodePlain_ok_iff {i j : Instr} {o d : Byte} : decodePlain i o d = .ok j ↔ (o = 0 ∧ d = 0) ∧ i = j := by
  unfold decodePlain
  split
  · next h => simp [h]
  · next h => simp only [h, false_and, reduceCtorEq]

theorem decodePlain_error_iff {i : Instr} {o d : Byte} :
    (∃ e, decodePlain i o d = .error e) ↔ o ≠ 0 ∨ d ≠ 0 := by
  unfold decodePlain
  split
  · next h => simp [h]
  · next h => exact ⟨fun _ => not_and_or.mp h, fun _ => ⟨_, rfl⟩⟩

theorem decodeQuery_ok_operands {i : Instr} {o d : Byte} (h : decodeQuery o d = .ok i) :
    d = 0 ∧ (o = 0 ∧ i = .qCycleBased ∨ o = 1 ∧ i = .qChannels) := by
  unfold decodeQuery at h
  split at h
  · cases h
  · next hd =>
    refine ⟨not_not.mp hd, ?_⟩
    split at h <;> cases h
    · next ho => exact .inl ⟨BitVec.eq_of_toNat_eq ho, rfl⟩
    · next ho => exact .inr ⟨BitVec.eq_of_toNat_eq ho, rfl⟩

theorem decodeQuery_error_iff {o d : Byte} : (∃ e, decodeQuery o d = .error e) ↔ 2 ≤ o.toNat ∨ d ≠ 0 := by
  unfold decodeQuery
  split
  · next hd => exact ⟨fun _ => .inr hd, fun _ => ⟨_, rfl⟩⟩
  · next hd =>
    rw [not_not] at hd
    split
    · next ho => simp [hd, ho]
    · next ho => simp [hd, ho]
    · next h0 h1 =>
      have h2 : 2 ≤ o.toNat := (Nat.two_le_iff _).mpr ⟨h0, h1⟩
      exact ⟨fun _ => .inl h2, fun _ => ⟨_, rfl⟩⟩

/-! Decoding and encoding (R60, R65). -/

/-- A word that decodes is its transaction's word, but for READ's `DATA` (R60). -/
theorem encode_of_decode {t : Word19} {i : Instr} (h : decode t = .ok i) :
    encode i = t ∨ (i = .read (offsetField t) ∧ kindField t = 0) := by
  induction t using word_cases
  case read o d =>
    rw [decode_packWord_read] at h
    cases h
    exact .inr (by simp)
  case store o d =>
    rw [decode_packWord_store] at h
    cases h
    exact .inl (encode_decodeStore o d)
  case query o d =>
    rw [decode_packWord_query] at h
    obtain ⟨rfl, ⟨rfl, rfl⟩ | ⟨rfl, rfl⟩⟩ := decodeQuery_ok_operands h <;> exact .inl rfl
  case reserved o d =>
    rw [decode_packWord_reserved] at h
    cases h
  all_goals
    simp only [decode_packWord_reset, decode_packWord_sample, decode_packWord_init, decode_packWord_calcSamples,
      decodePlain_ok_iff] at h
    obtain ⟨⟨rfl, rfl⟩, rfl⟩ := h
    exact .inl rfl

/-- The decoder rejects R66's words and no others. -/
theorem decode_error_iff (t : Word19) : (∃ e, decode t = .error e) ↔ IsReserved t := by
  induction t using word_cases
  case read o d => simp only [decode_packWord_read]; simp [IsReserved]
  case store o d => simp only [decode_packWord_store]; simp [IsReserved]
  case query o d => simp only [decode_packWord_query, decodeQuery_error_iff]; simp [IsReserved]
  case reserved o d => simp only [decode_packWord_reserved]; simp [IsReserved]
  all_goals
    simp only [decode_packWord_reset, decode_packWord_sample, decode_packWord_init, decode_packWord_calcSamples,
      decodePlain_error_iff]
    simp [IsReserved]

/-! The opcode map (R70): a row covers a word when it matches the word's kind, offset and data. -/

def Row.hasKind (r : Row) (k : BitVec 3) : Bool := k &&& kindField r.mask == kindField r.bits

def Row.hasOffset (r : Row) (o : Byte) : Bool := o &&& offsetField r.mask == offsetField r.bits

def Row.hasData (r : Row) (d : Byte) : Bool := d &&& dataField r.mask == dataField r.bits

theorem covers_packWord_eq (r : Row) (k : BitVec 3) (o d : Byte) :
    r.covers (packWord k o d) = (r.hasData d && (r.hasOffset o && r.hasKind k)) := by
  rw [Bool.eq_iff_iff, covers_packWord]
  simp only [Row.hasKind, Row.hasOffset, Row.hasData, Bool.and_eq_true, beq_iff_eq]
  tauto

/-- The rows of one kind. -/
def rowsOfKind (k : BitVec 3) : List Row := opcodeTable.filter (fun r => r.hasKind k)

/-- The mnemonics of the rows that cover a word, the left side of `Obligations.OpcodeRowsCoverEachWordOnce`. -/
def coveringMnemonics (t : Word19) : List String :=
  (opcodeTable.filter (fun r => r.covers t)).map (fun r => r.mnemonic)

/-- The rows that cover a word are found among those of its kind. -/
theorem coveringMnemonics_packWord (k : BitVec 3) (o d : Byte) :
    coveringMnemonics (packWord k o d) =
      (((rowsOfKind k).filter (fun r => r.hasOffset o)).filter (fun r => r.hasData d)).map (fun r => r.mnemonic) := by
  simp only [coveringMnemonics, rowsOfKind, covers_packWord_eq, List.filter_filter]

/-- The rows of STORE do not read `DATA`. -/
theorem storeRows_hasData (d : Byte) : ∀ r ∈ rowsOfKind 1, r.hasData d = true := by
  have dontCare : ∀ r ∈ rowsOfKind 1, dataField r.mask = 0 ∧ dataField r.bits = 0 := by decide
  intro r hr
  obtain ⟨hmask, hbits⟩ := dontCare r hr
  simp [Row.hasData, hmask, hbits]

/-- One of the rows of STORE has each offset (R70). -/
theorem storeRows_hasOffset : ∀ o : Byte,
    ((rowsOfKind 1).filter (fun r => r.hasOffset o)).map (fun r => r.mnemonic) = [(decodeStore o 0).mnemonic] := by
  decide

theorem coveringMnemonics_read (o d : Byte) : coveringMnemonics (packWord 0 o d) = ["READ"] := by
  rw [coveringMnemonics_packWord, show rowsOfKind 0 = [⟨"READ", 0x00000, 0x70000⟩] by decide]
  simp [Row.hasOffset, Row.hasData, offsetField, dataField]

theorem decodeStore_mnemonic (o d d' : Byte) : (decodeStore o d).mnemonic = (decodeStore o d').mnemonic := by
  unfold decodeStore
  split <;> rfl

theorem coveringMnemonics_store (o d : Byte) :
    coveringMnemonics (packWord 1 o d) = [(decodeStore o d).mnemonic] := by
  rw [coveringMnemonics_packWord,
    List.filter_eq_self.mpr fun r hr => storeRows_hasData d r (List.mem_of_mem_filter hr),
    storeRows_hasOffset, decodeStore_mnemonic]

theorem coveringMnemonics_encode {i : Instr} (hi : i.wf = true) : coveringMnemonics (encode i) = [i.mnemonic] := by
  cases i
  case read o => exact coveringMnemonics_read o 0
  case storeBad o d => rw [encode, coveringMnemonics_store, decodeStore_bad (of_decide_eq_true hi)]
  case storeOnOff d => exact coveringMnemonics_store 0 d
  case storeWaveform d => exact coveringMnemonics_store 1 d
  case storeRateLo d => exact coveringMnemonics_store 2 d
  case storeRateHi d => exact coveringMnemonics_store 3 d
  case storeManual d => exact coveringMnemonics_store 4 d
  all_goals decide

/-- Exactly one row covers a word that decodes, and it is its transaction's. -/
theorem coveringMnemonics_of_ok {t : Word19} {i : Instr} (h : decode t = .ok i) :
    coveringMnemonics t = [i.mnemonic] := by
  obtain ht | ⟨hi, hkind⟩ := encode_of_decode h
  · rw [← ht]
    exact coveringMnemonics_encode (Machine.decode_wf h)
  · rw [hi, ← packWord_fields t, hkind]
    exact coveringMnemonics_read _ _

/-- A row is one of READ's and STORE's, or it has a single word, and the decoder accepts that. -/
theorem opcodeTable_rows : ∀ r ∈ opcodeTable,
    kindField r.mask = 7 ∧ (kindField r.bits = 0 ∨ kindField r.bits = 1) ∨
      r.mask = BitVec.allOnes 19 ∧ (decode r.bits).isOk = true := by decide

theorem decode_isOk_of_covers {r : Row} {t : Word19} (hr : r ∈ opcodeTable) (h : r.covers t = true) :
    (decode t).isOk = true := by
  obtain ⟨hmask, hkind⟩ | ⟨hmask, hok⟩ := opcodeTable_rows r hr
  · rw [← packWord_fields t] at h ⊢
    have hk := ((covers_packWord r _ _ _).mp h).1
    rw [hmask, show (7 : BitVec 3) = BitVec.allOnes 3 by decide, BitVec.and_allOnes] at hk
    rw [hk]
    obtain h0 | h1 := hkind
    · rw [h0, decode_packWord_read]; rfl
    · rw [h1, decode_packWord_store]; rfl
  · rw [Row.covers, beq_iff_eq, hmask, BitVec.and_allOnes] at h
    rwa [h]

/-- No row covers a reserved word. -/
theorem coveringMnemonics_of_error {t : Word19} {e : Reject} (h : decode t = .error e) : coveringMnemonics t = [] := by
  have none : ∀ r ∈ opcodeTable, ¬ r.covers t = true := fun r hr hc => by
    have hok := decode_isOk_of_covers hr hc
    rw [h] at hok
    cases hok
  rw [coveringMnemonics, List.filter_eq_nil_iff.mpr none, List.map_nil]

end Sys2Proof

namespace Sys2Proof.Machine

open Sys2Proof Sys2Proof.Reference

theorem runWord_of_error {t : Word19} {e : Reject} (h : decode t = .error e) (s : State) :
    runWord t s = s.refuseReserved := by
  simp [runWord, h]

/-! A change of the state that the first checks do not see passes through them. -/

theorem whenRunning_mapNext {f : State → State} {s s' : State} {k k' : Outcome}
    (hfault : s'.chan.fault = s.chan.fault) (hk : k' = mapNext f k) :
    s'.whenRunning k' = mapNext f (s.whenRunning k) := by
  by_cases hf : s.Faulted
  · have hf' : s'.Faulted := by rwa [State.Faulted, hfault]
    rw [whenRunning_of_faulted hf, whenRunning_of_faulted hf', hfault]
    rfl
  · have hn : s.chan.fault = .none := not_not.mp hf
    rw [whenRunning_of_none hn, whenRunning_of_none (hfault.trans hn), hk]

theorem whenReady_mapNext {f : State → State} {s s' : State} {k k' : Outcome}
    (hfault : s'.chan.fault = s.chan.fault) (hinit : s'.chan.initDone = s.chan.initDone) (hk : k' = mapNext f k) :
    s'.whenReady k' = mapNext f (s.whenReady k) := by
  refine whenRunning_mapNext hfault ?_
  rw [hinit, hk]
  split <;> rfl

/-! The operands that no rule reads (R64): the checks and the record do not see them. -/

section

variable (s : State) (clock : ℕ) (chipch : Word32) (carry : ℕ)

@[simp] theorem withUnread_chan : (withUnread s clock chipch carry).chan = s.chan := rfl
@[simp] theorem withUnread_buf : (withUnread s clock chipch carry).buf = s.buf := rfl
@[simp] theorem withUnread_outch : (withUnread s clock chipch carry).side.outch = s.side.outch := rfl
@[simp] theorem withUnread_frames : (withUnread s clock chipch carry).side.frames = s.side.frames := rfl
@[simp] theorem calcArgsOk_withUnread : calcArgsOk (withUnread s clock chipch carry).side = calcArgsOk s.side := rfl
@[simp] theorem initArgsOk_withUnread : initArgsOk (withUnread s clock chipch carry).side = initArgsOk s.side := rfl

theorem sampleUnder_withUnread (p : Params) :
    sampleUnder p (withUnread s clock chipch carry) =
      mapNext (fun t => withUnread t clock chipch carry) (sampleUnder p s) := by
  refine whenReady_mapNext rfl rfl ?_
  rw [withUnread_chan]
  cases sampleFrame p s.chan <;> rfl

theorem calcUnder_withUnread (p : Params) :
    calcUnder p (withUnread s clock chipch carry) =
      mapNext (fun t => withUnread t clock chipch carry) (calcUnder p s) := by
  refine whenReady_mapNext rfl rfl ?_
  rw [calcArgsOk_withUnread, withUnread_chan, withUnread_buf, withUnread_outch, withUnread_frames]
  split_ifs
  · cases calcFrames p s.side.outch.toNat s.side.frames.toNat 0 s.chan s.buf <;> rfl
  · rfl

theorem execInit_withUnread :
    execInit (withUnread s clock chipch carry) = mapNext (fun t => withUnread t clock chipch carry) (execInit s) := by
  refine whenRunning_mapNext rfl ?_
  rw [initArgsOk_withUnread]
  split_ifs <;> rfl

end

end Sys2Proof.Machine

namespace Sys2Proof.Proofs

open Sys2Proof Sys2Proof.Machine Sys2Proof.Reference

/-- Settles O1, by the fields of each transaction's word. -/
theorem decodeInvertsEncode : Obligations.DecodeInvertsEncode := by
  intro i hi
  cases i
  case read o => exact decode_packWord_read o 0
  case storeBad o d => exact (decode_packWord_store o d).trans (congrArg _ (decodeStore_bad (of_decide_eq_true hi) d))
  case storeOnOff d => exact decode_packWord_store 0 d
  case storeWaveform d => exact decode_packWord_store 1 d
  case storeRateLo d => exact decode_packWord_store 2 d
  case storeRateHi d => exact decode_packWord_store 3 d
  case storeManual d => exact decode_packWord_store 4 d
  all_goals decide

/-- Settles O2: only READ's `DATA` is lost in decoding. -/
theorem encodeInvertsDecode : Obligations.EncodeInvertsDecode := fun _ _ h => ⟨decode_wf h, encode_of_decode h⟩

/-- Settles O3: the step reaches the decoder once the first checks pass. -/
theorem reservedWordsAreRefused : Obligations.ReservedWordsAreRefused := by
  refine ⟨decode_error_iff, fun s r rest hs hp hr => ?_⟩
  obtain ⟨e, he⟩ := (decode_error_iff r.word).mpr hr
  rw [step_of_pending hs.2 hp, runWord_of_error he, State.refuseReserved]
  exact whenReady_of_ready (s := s.accept r rest) hs _

/-- Settles O4: a word that decodes is READ's or its transaction's own; a row that covers a word is READ's or STORE's,
kinds that have no reserved word, or has a single word, which decodes. -/
theorem opcodeRowsCoverEachWordOnce : Obligations.OpcodeRowsCoverEachWordOnce := by
  intro t
  change coveringMnemonics t = _
  cases h : decode t with
  | ok i => exact coveringMnemonics_of_ok h
  | error e => exact coveringMnemonics_of_error h

/-- Settles O49: INIT, SAMPLE and CALC read other operands, and the other transactions read none. -/
theorem unreadOperandsAreIgnored : Obligations.UnreadOperandsAreIgnored := by
  intro i s clock chipch carry
  cases i
  case init => exact execInit_withUnread s clock chipch carry
  case sample => exact sampleUnder_withUnread s clock chipch carry Config.hw
  case calcSamples => exact calcUnder_withUnread s clock chipch carry Config.hw
  all_goals exact whenReady_mapNext rfl rfl rfl

/-- Settles O5, by evaluation. -/
theorem encodingExamplesDecode : Obligations.EncodingExamplesDecode := by
  unfold Obligations.EncodingExamplesDecode
  decide

/-- Settles O51: each expansion is a list of stores, and a store's word decodes by its offset. -/
theorem pseudoTransactionsExpand : Obligations.PseudoTransactionsExpand := by
  refine ⟨by decide, by decide, fun imm => ?_, fun imm => ?_⟩
  all_goals
    simp only [Pseudo.expand, Asm.word, List.map_cons, List.map_nil, decode_packWord_store]
    rfl

end Sys2Proof.Proofs
end

section
/-! The waveform clock family (spec/40_waveform_clock.md): the two period writes (R84, R85), RECOMPUTE's one division
(R82, R86, R87), and the silence after a zero period (R88). -/

namespace Sys2Proof

theorem packWord_or (k k' : BitVec 3) (o o' d d' : Byte) :
    packWord k o d ||| packWord k' o' d' = packWord (k ||| k') (o ||| o') (d ||| d') := by
  change (k ++ o ++ d) ||| (k' ++ o' ++ d') = (k ||| k') ++ (o ||| o') ++ (d ||| d')
  ext i hi
  simp only [BitVec.getElem_or, BitVec.getElem_append]
  split_ifs <;> rfl

/-- A byte widened to a word is that word's data (R60). -/
theorem setWidth_eq_packWord (d : Byte) : d.setWidth 19 = packWord 0 0 d := BitVec.setWidth_eq_append (by decide)

/-- A word is its word with data 0, with the data in its low bits. -/
theorem packWord_eq_or_data (k : BitVec 3) (o d : Byte) : packWord k o d = packWord k o 0 ||| d.setWidth 19 := by
  rw [setWidth_eq_packWord, packWord_or]
  simp

end Sys2Proof

namespace Sys2Proof.Machine

open Sys2Proof

/-! The rate (R80, R86, R87). -/

/-- An integer below 2^53 is exact in binary64 (R86). -/
theorem round64_natCast {n : ℕ} (h : n < 2 ^ 53) : round64 n = n :=
  round64_of_isBinary64 (isBinary64_intCast (n := n) (by rw [Nat.abs_cast]; exact_mod_cast h))

theorem rateOf_binary64 (period : Period) (rate cps : Word32) :
    rateOf .binary64 period rate cps =
      if period.toNat * rate.toNat ≠ 0 then round64 (cps.toNat / (period.toNat * rate.toNat : ℕ)) else 0 := by
  simp [rateOf, bsValidOf, rateProduct, fdiv_eq]

/-- A zero period gives rate 0, and the rate is not valid, under either arithmetic (R87). -/
theorem recompute_of_zeroPeriod {c : ChannelState} (h : c.shiftPeriod = 0) (A : Arith) :
    recompute A c = c.setRate 0 false := by
  simp [recompute, rateOf, bsValidOf, rateProduct, h]

/-! STORE.RATE_HI in a ready block (R85), and SAMPLE while the rate is not valid (R88). -/

theorem storeRateHiUnder_of_ready {s : State} (h : s.Ready) (p : Params) (data : Byte) :
    storeRateHiUnder p data s = .next ((s.setChan (writeRateHi p data s.chan)).respond .none) :=
  whenReady_of_ready h _

theorem sampleUnder_silent {s : State} (h : s.Ready) (hv : s.chan.bsValid = false) :
    sampleUnder Config.hw s = .next (s.respond (.sample (silentValue s.chan))) := by
  rw [sampleUnder, whenReady_of_ready h, sampleFrame_silent hv]
  rfl

theorem silentValue_eq (c : ChannelState) :
    silentValue c = if c.enabled = false ∧ c.manualLevel = true then 4095 else 0 := by
  simp [silentValue, levelOf]

end Sys2Proof.Machine

namespace Sys2Proof.Proofs

open Sys2Proof Sys2Proof.Machine

/-- Settles O14: a period of 0 under IGNORE_WRITE leaves the record as it is; in every other case RECOMPUTE runs on the
new period. -/
theorem storeRateHiRecomputesUnderEveryPolicy : Obligations.StoreRateHiRecomputesUnderEveryPolicy := by
  refine fun s data hs => ⟨rfl, packWord_eq_or_data 1 3 data, fun pol d =>
    ⟨periodOf data s.chan.rateLo, periodOf_toNat data s.chan.rateLo, ?_⟩⟩
  rw [storeRateHiUnder_of_ready hs, writeRateHi]
  by_cases hignored : periodOf data s.chan.rateLo = 0 ∧ pol = .ignoreWrite
  · rw [if_pos hignored, if_pos hignored]
    rfl
  · rw [if_neg hignored, if_neg hignored, recompute, rateOf_binary64]
    rfl

/-- Settles O25: the period formed is 0, and SILENT's sample leaves the record as it is. -/
theorem zeroPeriodIsSilentOnThisHardware : Obligations.ZeroPeriodIsSilentOnThisHardware := by
  refine ⟨fun s hs hlo => ⟨_, storeRateHiUnder_of_ready hs Config.hw 0, ?_⟩, fun s hs hv => ?_⟩
  · have hperiod : periodOf 0 s.chan.rateLo = 0 := by rw [hlo]; rfl
    rw [State.respond_chan, State.setChan_chan, writeRateHi_hw, hperiod, recompute_of_zeroPeriod rfl]
    rfl
  · rw [← silentValue_eq]
    exact sampleUnder_silent hs hv

/-- Settles O30: the frame is O31's, and both transactions end in RECOMPUTE. -/
theorem rateIsWrittenOnlyByRateHiAndInit : Obligations.RateIsWrittenOnlyByRateHiAndInit := by
  refine fun i s t h => ⟨fun hinit hhi => ?_, ?_⟩
  · obtain ⟨-, -, -, -, -, hrate, hvalid, -⟩ := eachFieldIsWrittenByItsTransactionsOnly i s t h
    have hother : ¬((∃ d, i = .storeRateHi d) ∨ i = .init) := by simp [hinit, hhi]
    exact ⟨not_imp_comm.mp hrate hother, not_imp_comm.mp hvalid hother⟩
  · rintro (rfl | ⟨d, rfl⟩)
    · cases exec_next_cases h with
      | init _ ht => subst ht; exact rateOk_recompute _
    · cases exec_next_cases h with
      | storeRateHi _ ht => subst ht; exact rateOk_recompute _

/-- Settles O39: the product of a 16-bit and a 32-bit number is far below 2^53. -/
theorem rateOperandsAreExactInBinary64 : Obligations.RateOperandsAreExactInBinary64 := by
  intro period rate cps
  have hproduct := rateProduct_lt period rate
  refine ⟨hproduct, round64_natCast (hproduct.trans (by norm_num)),
    round64_natCast (cps.isLt.trans (by norm_num)), fun h => ?_⟩
  rw [rateOf_binary64, if_pos h]

/-- Settles O13: the store in a ready block, and its word by kind, offset and data. -/
theorem storeRateLoWritesLatchOnly : Obligations.StoreRateLoWritesLatchOnly := fun _ data hs =>
  ⟨whenReady_of_ready hs _, packWord_eq_or_data 1 2 data⟩

end Sys2Proof.Proofs
end

section
/-! The sampler family (spec/41_sampler.md): SAMPLE in its three modes (R111, R112, R119) with the cursor advance
(R117, R118), COUNTSET (R113), and the box filter's window and full scale (R114, R116). -/

namespace Sys2Proof.Machine

open Sys2Proof Sys2Proof.Reference

/-! The two levels, the mode test and the samples, as the spec writes them. -/

theorem mod8_eq_fmod8 (x : ℚ) : mod8 x = fmod8 x := (fmod8_eq x).symm

theorem countSet_eq_setCount (w : Byte) (lo hi : ℤ) : countSet w lo hi = setCount w lo hi := by
  rw [countSet_eq_countFrom, countFrom_eq_sum, setCount, Finset.card_filter]
  refine Finset.sum_congr rfl fun j _ => ?_
  cases slotBit w (lo + j) <;> rfl

/-- A cursor in `[0, 8)` names bit `7 - floor` of the waveform (R9, R111). -/
theorem exactSample_of_lt {b : ℚ} (h0 : 0 ≤ b) (h8 : b < 8) (w : Byte) :
    exactSample b w = if w.getLsbD (7 - ⌊b⌋.toNat) then 4095 else 0 := by
  have hslot : (⌊b⌋.toNat : ℤ) = ⌊b⌋ := Int.toNat_of_nonneg (Int.floor_nonneg.mpr h0)
  have hlt : ⌊b⌋ < 8 := Int.floor_lt.mpr (by exact_mod_cast h8)
  rw [exactSample, ← hslot, slotBit_of_lt (by omega), hslot]
  rfl

theorem boxCount_binary64 (s e : ℚ) (w : Byte) : boxCount .binary64 s e w = boxCount64 s e w := by
  simp only [boxCount, boxCount64, countSet_eq_setCount, fadd_eq, fsub_eq, arithRound_binary64, toF_eq]
  push_cast
  rfl

theorem boxSample_hw (s e : ℚ) (w : Byte) : boxSample Config.hw s e w = roundClamp (boxRatio64 s e w) := by
  simp only [boxSample, hw_arith, hw_dsRound, boxRatio, boxCount_binary64, fdiv_eq, fmul_eq, fsub_eq,
    arithRound_binary64, roundOut_nearest]
  rfl

theorem sampleValue_on {c : ChannelState} (h : c.enabled = true) :
    sampleValue Config.hw c =
      if 1 < c.bitsPerSample then
        boxSample Config.hw c.bitCursor (round64 (c.bitCursor + c.bitsPerSample)) c.waveformByte
      else exactSample c.bitCursor c.waveformByte := by
  simp [sampleValue, h, fadd_eq]

theorem sampleValue_off {c : ChannelState} (h : c.enabled = false) (p : Params) :
    sampleValue p c = if c.manualLevel then 4095 else 0 := by
  simp [sampleValue, h, levelOf]

/-- SAMPLE in a ready block with a valid rate: the sample, the cursor's advance (R117), and nothing else. -/
theorem exec_sample_valid {s : State} (h : s.Ready) (hv : s.chan.bsValid = true) :
    exec .sample s = .next { s with
      chan := { s.chan with bitCursor := mod8 (round64 (s.chan.bitCursor + s.chan.bitsPerSample)) }
      result := .sample (sampleValue Config.hw s.chan) } := by
  change s.whenReady _ = _
  rw [whenReady_of_ready h, sampleFrame_valid hv, nextCursor_hw, mod8_eq_fmod8]
  rfl

/-! The source's subtraction loop (R118, and R134 with 1 for 8): each difference is exact. -/

theorem isBinary64_sub_natCast {x : ℚ} {d : ℕ} (hx : IsBinary64 x) (hd : d ≤ x) (hlt : x < 2 ^ 53) :
    IsBinary64 (x - d) := by
  obtain ⟨m, e, hm, he, rfl⟩ := hx
  obtain ⟨n, rfl | rfl⟩ := e.eq_nat_or_neg
  · have hint : (m : ℚ) * 2 ^ (n : ℤ) - d = ((m * 2 ^ n - d : ℤ) : ℚ) := by push_cast; rfl
    have hnonneg := sub_nonneg.mpr hd
    have hbound := (sub_le_self ((m : ℚ) * 2 ^ (n : ℤ)) d.cast_nonneg).trans_lt hlt
    rw [hint] at hnonneg hbound ⊢
    have hnonneg : 0 ≤ m * 2 ^ n - d := by exact_mod_cast hnonneg
    have hbound : m * 2 ^ n - d < 2 ^ 53 := by exact_mod_cast hbound
    exact isBinary64_intCast (abs_lt.mpr ⟨by omega, hbound⟩)
  · have hval : (m : ℚ) * 2 ^ (-n : ℤ) - d = ((m - d * 2 ^ n : ℤ) : ℚ) * 2 ^ (-n : ℤ) := by
      push_cast
      rw [zpow_neg, zpow_natCast]
      field_simp
    have hnonneg : 0 ≤ m - d * 2 ^ n := by
      have := hval ▸ sub_nonneg.mpr hd
      exact_mod_cast nonneg_of_mul_nonneg_left this (two_zpow_pos _)
    have hsmaller : 0 ≤ (d : ℤ) * 2 ^ n := by positivity
    have := abs_lt.mp hm
    exact ⟨m - d * 2 ^ n, -n, abs_lt.mpr ⟨by omega, by omega⟩, he, hval⟩

/-- The loop that subtracts `d`, given enough rounds, leaves the remainder by `d`. -/
theorem subtractLoop_eq {d : ℕ} (hd : 0 < d) : ∀ {n : ℕ} {x : ℚ}, IsBinary64 x → 0 ≤ x → x < 2 ^ 53 →
    ⌊x / d⌋ ≤ n → subtractLoop d n x = x - d * ⌊x / d⌋
  | n, x, hx, h0, hlt, hn => by
    have hdpos : (0 : ℚ) < d := by exact_mod_cast hd
    rcases lt_or_ge x d with hdone | hmore
    · have hfloor : ⌊x / d⌋ = 0 := Int.floor_eq_zero_iff.mpr ⟨by positivity, (div_lt_one hdpos).mpr hdone⟩
      rw [hfloor, Int.cast_zero, mul_zero, sub_zero]
      cases n with
      | zero => rfl
      | succ n => exact if_neg (not_le.mpr hdone)
    · have hfloor : ⌊(x - d) / d⌋ = ⌊x / d⌋ - 1 := by rw [sub_div, div_self hdpos.ne', Int.floor_sub_one]
      have hround : 1 ≤ ⌊x / d⌋ := Int.le_floor.mpr (by simpa using (one_le_div hdpos).mpr hmore)
      cases n with
      | zero => omega
      | succ n =>
        have hb : IsBinary64 (x - d) := isBinary64_sub_natCast hx hmore hlt
        rw [subtractLoop, if_pos hmore, round64_of_isBinary64 hb,
          subtractLoop_eq hd hb (sub_nonneg.mpr hmore) (by linarith) (by push_cast at hn; omega), hfloor]
        push_cast
        ring

/-! The window (R114). -/

/-- The error of one rounding, subnormal results included. -/
theorem round64_abs_sub_le {q : ℚ} (h : 0 ≤ q) : |round64 q - q| ≤ (q + 1) / 2 ^ 53 := by
  rcases le_or_gt ((2 : ℚ) ^ (-1022 : ℤ)) q with hnormal | hsmall
  · have hrel := round64_rel_error (hnormal.trans (le_abs_self q))
    rw [abs_of_nonneg h, zpow_neg] at hrel
    norm_num at hrel ⊢
    linarith
  · calc |round64 q - q|
      _ ≤ |0 - q| := round64_nearest isBinary64_zero q
      _ = q := by rw [zero_sub, abs_neg, abs_of_nonneg h]
      _ ≤ 2 ^ (-53 : ℤ) := hsmall.le.trans (zpow_le_zpow_right₀ (by norm_num) (by norm_num))
      _ = 1 / 2 ^ 53 := by norm_num
      _ ≤ (q + 1) / 2 ^ 53 := by gcongr; linarith

/-- At a rate above 1.0 the window's end is in a later slot than its start. -/
theorem boxWindow_end {s bs : ℚ} (h0 : 0 ≤ s) (h8 : s < 8) (hbs : 1 < bs) :
    ((⌊s⌋ + 1 : ℤ) : ℚ) ≤ round64 (s + bs) := by
  have hslot0 : 0 ≤ ⌊s⌋ := Int.floor_nonneg.mpr h0
  have hslot8 : ⌊s⌋ < 8 := Int.floor_lt.mpr (by exact_mod_cast h8)
  refine le_round64 (isBinary64_intCast (abs_lt.mpr ⟨by omega, by omega⟩)) ?_
  have := Int.floor_le s
  push_cast
  linarith

/-- The rounded sum takes away next to nothing of a rate above 1.0. -/
theorem boxWindow_length {s bs : ℚ} (h0 : 0 ≤ s) (h8 : s < 8) (hbs : 1 < bs) : 1 / 2 ≤ round64 (s + bs) - s := by
  have herror := (abs_le.mp (round64_abs_sub_le (q := s + bs) (by linarith))).1
  linarith

theorem isBinary64_half : IsBinary64 (1 / 2) := ⟨1, -1, by norm_num, by norm_num, by norm_num⟩

/-! Full scale (R116). -/

theorem slotBit_ones (i : ℤ) : slotBit 0xFF i = true := by
  have h : (0xFF : Byte) = BitVec.allOnes 8 := rfl
  rw [slotBit, h, BitVec.getLsbD_allOnes, decide_eq_true_iff]
  omega

theorem slotBit_zeros (i : ℤ) : slotBit 0x00 i = false := BitVec.getLsbD_zero

theorem setCount_ones (lo hi : ℤ) : setCount 0xFF lo hi = (hi - lo).toNat := by
  simp only [setCount, slotBit_ones, Finset.filter_true, Finset.card_range]

theorem setCount_zeros (lo hi : ℤ) : setCount 0x00 lo hi = 0 := by
  simp only [setCount, slotBit_zeros, Bool.false_eq_true, Finset.filter_false, Finset.card_empty]

/-- With every slot set, the three roundings of the count lose less than `2^-48` of the window. -/
theorem le_boxCount64_ones {s e : ℚ} (hslot : ((⌊s⌋ + 1 : ℤ) : ℚ) ≤ e) (hlen : 1 / 2 ≤ e - s) :
    (e - s) * (1 - 1 / 2 ^ 48) ≤ boxCount64 s e 0xFF := by
  obtain ⟨n, hn⟩ := Int.le.dest (Int.le_floor.mpr hslot)
  have hcount : setCount 0xFF (⌊s⌋ + 1) ⌊e⌋ = n := by rw [setCount_ones, ← hn]; omega
  have hwhole : (⌊e⌋ : ℚ) = ⌊s⌋ + 1 + n := by exact_mod_cast hn.symm
  have hn0 : (0 : ℚ) ≤ n := n.cast_nonneg
  have hs0 : 0 ≤ (⌊s⌋ + 1 : ℚ) - s := by linarith [Int.lt_floor_add_one s]
  have he0 : 0 ≤ e - ⌊e⌋ := by linarith [Int.floor_le e]
  have hp0 := round64_nonneg hs0
  have ha0 := round64_nonneg (add_nonneg hn0 hp0)
  have hq0 := round64_nonneg he0
  have hp := (abs_le.mp (round64_abs_sub_le hs0)).1
  have ha := (abs_le.mp (round64_abs_sub_le (add_nonneg hn0 hp0))).1
  have hq := (abs_le.mp (round64_abs_sub_le he0)).1
  have hsum := (abs_le.mp (round64_abs_sub_le (add_nonneg ha0 hq0))).1
  simp only [boxCount64, hcount, slotBit_ones, if_true]
  linarith

theorem boxRatio64_ones {s e : ℚ} (hslot : ((⌊s⌋ + 1 : ℤ) : ℚ) ≤ e) (hlen : 1 / 2 ≤ e - s) :
    8189 / 2 ≤ boxRatio64 s e 0xFF := by
  have hcount := le_boxCount64_ones hslot hlen
  have hcount0 : 0 ≤ boxCount64 s e 0xFF * 4095 := by linarith
  have hnum := (abs_le.mp (round64_abs_sub_le hcount0)).1
  have hden := (abs_le.mp (round64_abs_sub_le (by linarith : 0 ≤ e - s))).2
  have hpos : 0 < round64 (e - s) := lt_of_lt_of_le (by norm_num) (le_round64 isBinary64_half hlen)
  refine le_round64 ⟨8189, -1, by norm_num, by norm_num, by norm_num⟩ ?_
  rw [le_div_iff₀ hpos]
  linarith

theorem roundClamp_of_ge {r : ℚ} (h : 8189 / 2 ≤ r) : roundClamp r = 4095 := by
  have hfloor : 4095 ≤ ⌊r + 1 / 2⌋ := Int.le_floor.mpr (by push_cast; linarith)
  rw [roundClamp, max_eq_left (by omega), min_eq_right hfloor]
  rfl

theorem boxRatio64_zeros (s e : ℚ) : boxRatio64 s e 0x00 = 0 := by
  have hcount : boxCount64 s e 0x00 = 0 := by
    simp only [boxCount64, setCount_zeros, slotBit_zeros, Bool.false_eq_true, if_false, Nat.cast_zero]
  rw [boxRatio64, hcount, zero_mul, round64_zero, zero_div, round64_zero]

theorem roundClamp_zero : roundClamp 0 = 0 := by
  have hfloor : ⌊(0 : ℚ) + 1 / 2⌋ = 0 := by norm_num
  rw [roundClamp, hfloor]
  rfl

end Sys2Proof.Machine

namespace Sys2Proof.Proofs

open Sys2Proof Sys2Proof.Machine Sys2Proof.Reference

/-- Settles O21: a rate of at most 1.0 is exact mode. -/
theorem sampleExactModeTestsTheStartSlot : Obligations.SampleExactModeTestsTheStartSlot := by
  intro s hs hv hon hrate h0 h8
  rw [exec_sample_valid hs hv, sampleValue_on hon, if_neg (not_lt.mpr hrate), exactSample_of_lt h0 h8]

/-- Settles O22: a rate above 1.0 is box-filter mode, whose slot count is COUNTSET's. -/
theorem sampleBoxModeIsTheBoxFilter : Obligations.SampleBoxModeIsTheBoxFilter := by
  intro s hs hv hon hrate
  rw [exec_sample_valid hs hv, sampleValue_on hon, if_pos hrate, boxSample_hw]

/-- Settles O40: each subtraction of 8 is exact, and there are `floor(x/8)` of them. -/
theorem cursorReductionEqualsSubtractionLoop : Obligations.CursorReductionEqualsSubtractionLoop := by
  intro x n hx h0 hlt hn
  refine ⟨?_, fmod8_eq x, isBinary64_fmod8 hx h0⟩
  rw [fmod8_eq]
  exact_mod_cast subtractLoop_eq (d := 8) (by norm_num) hx h0 hlt (by exact_mod_cast hn)

/-- Settles O41: rounding does not cross the next slot's number, nor the half that bounds the window from below. -/
theorem boxWindowIsWellFormed : Obligations.BoxWindowIsWellFormed := by
  intro s bs h0 h8 _ hbs
  have hend := boxWindow_end h0 h8 hbs
  have hlen : 1 / 2 ≤ round64 (round64 (s + bs) - s) := le_round64 isBinary64_half (boxWindow_length h0 h8 hbs)
  exact ⟨Int.le_floor.mpr hend, hend, by linarith⟩

/-- Settles O42: eight slots in a row are the whole byte, so the closed form adds up all slots of the range. -/
theorem countSetCountsTheSetSlots : Obligations.CountSetCountsTheSetSlots :=
  ⟨countSet_eq_setCount, fun _ => sampleValue_on⟩

/-- Settles O43: over ones the roundings leave a ratio of at least 4094.5, which rounds up to 4095. -/
theorem allSlotsSetGivesFullScale : Obligations.AllSlotsSetGivesFullScale := by
  intro s bs h0 h8 _ _ hbs _
  rw [boxSample_hw, boxSample_hw, boxRatio64_zeros, roundClamp_zero]
  exact ⟨roundClamp_of_ge (boxRatio64_ones (boxWindow_end h0 h8 hbs) (boxWindow_length h0 h8 hbs)), rfl⟩

/-- Settles O23: the manual level decides. -/
theorem sampleDisabledGivesTheManualLevel : Obligations.SampleDisabledGivesTheManualLevel := by
  intro s hs hv hoff
  rw [exec_sample_valid hs hv, sampleValue_off hoff]

/-- Settles O24: the mode changes the sample only. -/
theorem everySampleAdvancesTheCursor : Obligations.EverySampleAdvancesTheCursor := fun _ hs hv =>
  ⟨_, exec_sample_valid hs hv⟩

end Sys2Proof.Proofs
end

section
/-! The adapter family (spec/42_adapter.md): the stores that are not rate registers, READ, RESET and the queries in a ready
block (R131 to R139, R146, R147), INIT (R140, R141), and CALC as a run of SAMPLEs (R142 to R144). -/

namespace Sys2Proof.Machine

open Sys2Proof Sys2Proof.Reference

/-! The stores' flag (R132, R136) and WAVEFORM's cut of the cursor (R133, R134). -/

theorem flagOf_eq (data : Byte) : flagOf data = decide (data.toNat ≠ 0) := decide_eq_decide.mpr BitVec.toNat_ne

theorem writeWaveform_of_cursorOk {c : ChannelState} (h : CursorOk c) (data : Byte) :
    writeWaveform .binary64 data c = { c with waveformByte := data, bitCursor := Int.fract c.bitCursor } := by
  obtain ⟨h0, -, hb⟩ := h
  rw [writeWaveform, cutCursor_binary64 hb h0]
  rfl

/-- The source's loop that subtracts 1.0, given 8 rounds, leaves the fraction of a cursor (R134). -/
theorem subtractLoop_one {c : ChannelState} (h : CursorOk c) {n : ℕ} (hn : 8 ≤ n) :
    subtractLoop 1 n c.bitCursor = Int.fract c.bitCursor := by
  obtain ⟨h0, h8, hb⟩ := h
  have hslot : ⌊c.bitCursor⌋ < 8 := Int.floor_lt.mpr (by exact_mod_cast h8)
  have hloop := subtractLoop_eq (d := 1) one_pos hb h0 (h8.trans (by norm_num)) (n := n)
    (by rw [Nat.cast_one, div_one]; omega)
  rwa [Nat.cast_one, div_one, one_mul] at hloop

/-! INIT (R140). -/

theorem initArgsOk_of_ne_zero {x : SideOperands} (hrate : x.rate ≠ 0) (hcps : x.cps ≠ 0) : initArgsOk x = true :=
  decide_eq_true ⟨hrate, hcps⟩

theorem initArgsOk_of_zero {x : SideOperands} (h : x.rate = 0 ∨ x.cps = 0) : initArgsOk x = false :=
  decide_eq_false fun ⟨hrate, hcps⟩ => h.elim hrate hcps

theorem exec_init_of_argsOk {s : State} (hf : s.chan.fault = .none) (ha : initArgsOk s.side = true) :
    exec .init s = .next ((s.setChan (initialise .binary64 s.side.rate s.side.cps s.chan)).respond (.ok 1)) :=
  (whenRunning_of_none hf _).trans (if_pos ha)

theorem exec_init_of_argsBad {s : State} (hf : s.chan.fault = .none) (ha : initArgsOk s.side = false) :
    exec .init s = .refused .badInitArg :=
  (whenRunning_of_none hf _).trans (if_neg (by simp [ha]))

/-- What INIT leaves depends on the record before it in `fault` only. -/
theorem initialise_congr {c c' : ChannelState} (h : c.fault = c'.fault) (A : Arith) (rate cps : Word32) :
    initialise A rate cps c = initialise A rate cps c' := by
  rw [initialise, initialise, h]
  rfl

theorem initialise_binary64 {rate : Word32} (hrate : rate ≠ 0) (cps : Word32) (c : ChannelState) :
    initialise .binary64 rate cps c = {
      enabled := false, manualLevel := false, waveformByte := 0x00, rateLo := 0x20, shiftPeriod := 32,
      bitsPerSample := round64 (cps.toNat / (32 * rate.toNat : ℕ)), bsValid := true, bitCursor := 0,
      sampleRate := rate, cyclesPerSecond := cps, initDone := true, fault := c.fault } := by
  have hproduct : (32 : Period).toNat * rate.toNat ≠ 0 := mul_ne_zero (by decide) (BitVec.toNat_ne.mp hrate)
  have hvalid : bsValidOf 32 rate = true := decide_eq_true hproduct
  have hrateOf := rateOf_binary64 32 rate cps
  rw [if_pos hproduct] at hrateOf
  rw [initialise, recompute, hvalid, hrateOf]
  rfl

/-! One sample on this hardware as a function of the record, and the SAMPLE that draws it (R110). -/

/-- The sample drawn. -/
def frameSample (c : ChannelState) : Sample := if c.bsValid then sampleValue Config.hw c else silentValue c

/-- The record after a sample. -/
def afterFrame (c : ChannelState) : ChannelState :=
  c.setBitCursor (if c.bsValid then nextCursor Config.hw c else c.bitCursor)

theorem sampleFrame_hw_eq (c : ChannelState) : sampleFrame Config.hw c = .ok (frameSample c, afterFrame c) := by
  rw [frameSample, afterFrame]
  cases h : c.bsValid
  · exact sampleFrame_silent h
  · exact sampleFrame_valid h _

/-- The state after a SAMPLE. -/
def sampled (s : State) : State := (s.setChan (afterFrame s.chan)).respond (.sample (frameSample s.chan))

theorem exec_sample_of_ready {s : State} (h : s.Ready) : exec .sample s = .next (sampled s) := by
  change s.whenReady _ = _
  rw [whenReady_of_ready h, sampleFrame_hw_eq]
  rfl

theorem sampled_iterate_chan (k : ℕ) (s : State) : (sampled^[k] s).chan = afterFrame^[k] s.chan :=
  Function.Semiconj.iterate_right (f := State.chan) (fun _ => rfl) k s

theorem sampled_iterate_ready {s : State} (h : s.Ready) : ∀ k, (sampled^[k] s).Ready
  | 0 => h
  | k + 1 => by
    rw [Function.iterate_succ_apply']
    exact exec_next_leaves_ready (exec_sample_of_ready (sampled_iterate_ready h k)) (by simp)

/-- The manual level does not show in the samples of an enabled channel (R136). -/
theorem frameSample_setManualLevel {c : ChannelState} (h : c.enabled = true) (m : Bool) :
    frameSample (c.setManualLevel m) = frameSample c := by
  have hvalid : sampleValue Config.hw (c.setManualLevel m) = sampleValue Config.hw c := by
    rw [sampleValue_on h, sampleValue_on (c := c.setManualLevel m) h]
    rfl
  have hsilent : silentValue (c.setManualLevel m) = silentValue c := by simp [silentValue, h]
  rw [frameSample, hvalid, hsilent]
  rfl

/-! The elements of the frames (R43). -/

theorem frameIndex_lt {o n f ch : ℕ} (hf : f < n) (hch : ch < o) : frameIndex o f ch < n * o :=
  calc f * o + ch
    _ < (f + 1) * o := by rw [Nat.add_one_mul]; omega
    _ ≤ n * o := Nat.mul_le_mul_right o hf

theorem frameIndex_lt_of_frame_lt {o f g ch d : ℕ} (hfg : f < g) (hch : ch < o) :
    frameIndex o f ch < frameIndex o g d := (frameIndex_lt hfg hch).trans_le (Nat.le_add_right _ _)

/-! CALC's loop (R142): the record goes through the frames' samples, and each frame's elements are mixed once. -/

theorem calcFrames_succ_hw (o n f : ℕ) (c : ChannelState) (b : HostBuffer) :
    calcFrames Config.hw o (n + 1) f c b =
      calcFrames Config.hw o n (f + 1) (afterFrame c) (fanOut b o f (frameSample c) o) := by
  rw [calcFrames, sampleFrame_hw_eq]

theorem calcFrames_hw_chan {o : ℕ} : ∀ {n f : ℕ} {c c' : ChannelState} {b b' : HostBuffer},
    calcFrames Config.hw o n f c b = .ok (c', b') → c' = afterFrame^[n] c
  | 0, _, _, _, _, _, h => by cases h; rfl
  | n + 1, f, c, c', b, b', h => by
    rw [calcFrames_succ_hw] at h
    rw [Function.iterate_succ_apply]
    exact calcFrames_hw_chan h

/-- An element of none of the frames reads as before. -/
theorem bufRead_calcFrames_other {o k : ℕ} : ∀ {n f : ℕ} {c c' : ChannelState} {b b' : HostBuffer},
    calcFrames Config.hw o n f c b = .ok (c', b') → (∀ g, f ≤ g → g < f + n → ∀ ch < o, k ≠ frameIndex o g ch) →
      bufRead b' k = bufRead b k
  | 0, _, _, _, _, _, h, _ => by cases h; rfl
  | n + 1, f, c, c', b, b', h, hk => by
    rw [calcFrames_succ_hw] at h
    rw [bufRead_calcFrames_other h fun g hg hlt => hk g (by omega) (by omega),
      bufRead_fanOut_other (hk f le_rfl (by omega))]

/-- Every channel of the loop's `j`-th frame holds its old element mixed with that frame's sample, once (R144). -/
theorem bufRead_calcFrames {o ch : ℕ} (hch : ch < o) :
    ∀ {n f j : ℕ} {c c' : ChannelState} {b b' : HostBuffer},
      calcFrames Config.hw o n f c b = .ok (c', b') → (f + n) * o ≤ b.length → j < n →
        bufRead b' (frameIndex o (f + j) ch) =
          Config.mix (bufRead b (frameIndex o (f + j) ch)) (frameSample (afterFrame^[j] c))
  | 0, _, _, _, _, _, _, _, _, hj => absurd hj (Nat.not_lt_zero _)
  | n + 1, f, 0, c, c', b, b', h, hlen, _ => by
    rw [calcFrames_succ_hw] at h
    have hlater : ∀ g, f + 1 ≤ g → g < f + 1 + n → ∀ d < o, frameIndex o f ch ≠ frameIndex o g d :=
      fun g hg _ d _ => (frameIndex_lt_of_frame_lt hg hch).ne
    have hin : frameIndex o f ch < b.length := (frameIndex_lt (by omega) hch).trans_le hlen
    exact (bufRead_calcFrames_other h hlater).trans (bufRead_fanOut hch hin)
  | n + 1, f, j + 1, c, c', b, b', h, hlen, hj => by
    rw [calcFrames_succ_hw] at h
    have hfirst : ∀ d < o, frameIndex o (f + (j + 1)) ch ≠ frameIndex o f d :=
      fun d hd => (frameIndex_lt_of_frame_lt (by omega) hd).ne'
    have hrest := bufRead_calcFrames hch h (by rwa [length_fanOut, add_right_comm]) (Nat.lt_of_succ_lt_succ hj)
    rwa [add_right_comm, add_assoc, bufRead_fanOut_other hfirst] at hrest

/-! CALC in a ready block: its argument check (R143), and its next state on this hardware. -/

theorem calcUnder_of_argsBad {s : State} (h : s.Ready) (ha : calcArgsOk s.side s.buf = false) (p : Params) :
    calcUnder p s = .refused .badCalcArg :=
  (whenReady_of_ready h _).trans (if_neg (by simp [ha]))

theorem calcUnder_ne_refused {s : State} (h : s.Ready) (ha : calcArgsOk s.side s.buf = true) (p : Params)
    (x : Refusal) : calcUnder p s ≠ .refused x := by
  rw [calcUnder, whenReady_of_ready h, if_pos ha]
  split <;> simp

theorem exec_calcSamples_of_argsOk {s : State} (h : s.Ready) (ha : calcArgsOk s.side s.buf = true) :
    ∃ t, exec .calcSamples s = .next t := by
  obtain ⟨x, b, hx, -⟩ := calcFrames_hw s.side.outch.toNat s.side.frames.toNat 0 s.chan s.buf
  change ∃ t, s.whenReady _ = .next t
  rw [whenReady_of_ready h, if_pos ha, hx]
  exact ⟨_, rfl⟩

end Sys2Proof.Machine

namespace Sys2Proof.Proofs

open Sys2Proof Sys2Proof.Machine Sys2Proof.Reference

/-- Settles O9: INIT writes every field but `fault`, which is NONE in both states. -/
theorem secondInitForgetsEverything : Obligations.SecondInitForgetsEverything := by
  intro s s' hs hs' hrate hcps hrate0 hcps0
  have ha : initArgsOk s.side = true := initArgsOk_of_ne_zero hrate0 hcps0
  have ha' : initArgsOk s'.side = true := initArgsOk_of_ne_zero (hrate ▸ hrate0) (hcps ▸ hcps0)
  refine ⟨_, _, exec_init_of_argsOk hs ha, exec_init_of_argsOk hs' ha', ?_, rfl⟩
  simp only [State.respond_chan, State.setChan_chan, ← hrate, ← hcps]
  exact initialise_congr (hs.trans hs'.symm) _ _ _

/-- Settles O16: the cut cursor is its fraction, and so is what the source's loop leaves. -/
theorem waveformWriteKeepsCursorFraction : Obligations.WaveformWriteKeepsCursorFraction := by
  intro s data hs hcursor
  refine ⟨?_, Int.fract_nonneg _, Int.fract_lt_one _, fun h1 => Int.fract_eq_self.mpr ⟨hcursor.1, h1⟩,
    fun n hn => subtractLoop_one hcursor hn, packWord_eq_or_data 1 1 data⟩
  have hexec : exec (.storeWaveform data) s = .next ((s.setChan (writeWaveform .binary64 data s.chan)).respond .none) :=
    whenReady_of_ready hs _
  rw [hexec, writeWaveform_of_cursorOk hcursor]
  rfl

/-- Settles O27: CALC's loop makes the moves of a run of SAMPLEs, and the frames' elements do not overlap. -/
theorem calcIsRepeatedSampleMixedIntoEveryChannel : Obligations.CalcIsRepeatedSampleMixedIntoEveryChannel := by
  intro s hs hout hlen
  obtain ⟨t, ht⟩ := exec_calcSamples_of_argsOk hs (calcArgsOk_iff.mpr ⟨hout, hlen⟩)
  obtain ⟨-, x, b, hcalc, hlength, rfl⟩ := execCalc_next ht
  have hsample : ∀ f, exec .sample (sampled^[f] s) = .next (sampled^[f + 1] s) := fun f => by
    rw [Function.iterate_succ_apply']
    exact exec_sample_of_ready (sampled_iterate_ready hs f)
  have hresult : ∀ f, (sampled^[f + 1] s).result = .sample (frameSample (afterFrame^[f] s.chan)) := fun f => by
    rw [Function.iterate_succ_apply', ← sampled_iterate_chan]
    rfl
  have hchan : s.chan.setBitCursor x = (sampled^[s.side.frames.toNat] s).chan := by
    rw [sampled_iterate_chan]
    exact calcFrames_hw_chan hcalc
  refine ⟨_, fun f => sampled^[f] s, fun f => frameSample (afterFrame^[f] s.chan), ht, rfl,
    fun f _ => ⟨hsample f, hresult f⟩, hchan, ⟨x, rfl⟩, rfl, rfl, rfl, hlength, fun f hf ch hch => ?_,
    (execCalc_next_buf ht).2⟩
  have hframe := bufRead_calcFrames hch hcalc (by rwa [zero_add]) hf
  rwa [zero_add] at hframe

/-- Settles O8: the product of the period 32 and a nonzero rate is nonzero, so the rate is the division. -/
theorem initEstablishesInitialState : Obligations.InitEstablishesInitialState := by
  refine fun s hs => ⟨fun hrate hcps => ?_, fun h => exec_init_of_argsBad hs (initArgsOk_of_zero h), by decide⟩
  rw [exec_init_of_argsOk hs (initArgsOk_of_ne_zero hrate hcps), initialise_binary64 hrate, hs]
  rfl

/-- Settles O10: READ in a ready block, and KIND 000's decoding. -/
theorem readReturnsZeroAtEveryOffset : Obligations.ReadReturnsZeroAtEveryOffset := by
  refine ⟨fun s _ hs => whenReady_of_ready hs _, fun t hkind => ?_⟩
  rw [← packWord_fields t, hkind, decode_packWord_read, offsetField_packWord]

/-- Settles O11: the store in a ready block, and its word by kind, offset and data. -/
theorem storeOnOffWritesEnabledOnly : Obligations.StoreOnOffWritesEnabledOnly := by
  refine fun s data hs => ⟨?_, packWord_eq_or_data 1 0 data⟩
  rw [← flagOf_eq]
  exact whenReady_of_ready hs _

/-- Settles O12: the store in a ready block, and an enabled channel's sample, which does not read the level. -/
theorem storeManualWritesManualLevelOnly : Obligations.StoreManualWritesManualLevelOnly := by
  refine fun s data hs => ⟨?_, packWord_eq_or_data 1 4 data, fun hon m => ?_⟩
  · rw [← flagOf_eq]
    exact whenReady_of_ready hs _
  · refine ⟨_, _, exec_sample_of_ready hs, exec_sample_of_ready (s := s.setChan (s.chan.setManualLevel m)) hs, ?_⟩
    exact congrArg Result.sample (frameSample_setManualLevel hon m).symm

/-- Settles O17: the store in a ready block, and KIND 001's decoding at an offset that is no register's. -/
theorem storeBadRaisesBadOffset : Obligations.StoreBadRaisesBadOffset := by
  refine ⟨fun s _ _ hs => whenReady_of_ready hs _, fun t hkind hoffset => ?_⟩
  rw [← decodeStore_bad hoffset, ← decode_packWord_store, ← hkind, packWord_fields]

/-- Settles O20: the first RESET leaves a ready block whose `enabled` is already false. -/
theorem resetWritesEnabledOnly : Obligations.ResetWritesEnabledOnly := by
  refine ⟨fun s clock hs => ⟨whenReady_of_ready (s := { s with side := { s.side with clock := clock } }) hs _, ?_⟩,
    fun s hs => whenReady_of_faulted hs _, by decide⟩
  have hfirst : exec .reset s = .next ((s.setChan (s.chan.setEnabled false)).respond .none) := whenReady_of_ready hs _
  exact ⟨_, hfirst, writeRecord_again (f := (·.setEnabled false)) hfirst rfl
    (exec_next_leaves_ready hfirst (by simp))⟩

/-- Settles O28: the argument check comes before CALC's first sample, whatever the parameters. -/
theorem calcRefusesBadArguments : Obligations.CalcRefusesBadArguments := by
  refine fun s hs => ⟨fun h => ?_, fun hout hlen x => ?_⟩
  · have hbad := calcUnder_of_argsBad hs (calcArgsOk_eq_false_iff.mpr h)
    exact ⟨hbad Config.hw, hbad⟩
  · have hgood := fun p => calcUnder_ne_refused hs (calcArgsOk_iff.mpr ⟨hout, hlen⟩) p x
    exact ⟨hgood Config.hw, hgood⟩

/-- Settles O29: the queries in a ready block. -/
theorem queriesReturnConstants : Obligations.QueriesReturnConstants := fun _ hs =>
  ⟨whenReady_of_ready hs _, whenReady_of_ready hs _, by decide, by decide⟩

end Sys2Proof.Proofs
end

section
/-! The exceptions family (spec/60_exceptions.md): a faulted block stops every transaction (R166, R167), the fault
ZERO_PERIOD under the policies (R162), and the issuer, which no rule reads (R169). -/

namespace Sys2Proof.Machine

open Sys2Proof

/-! A faulted block (R166, R167). -/

theorem exec_of_faulted {s : State} (h : s.Faulted) (i : Instr) : exec i s = .fault (.halted s.chan.fault) := by
  cases i
  case init => exact whenRunning_of_faulted h _
  all_goals exact whenReady_of_faulted h _

theorem step_of_faulted {s : State} (h : s.Faulted) : step s = .fault (.halted s.chan.fault) :=
  whenRunning_of_faulted h _

/-- The one transaction that answers a faulted state on this hardware (R161, R166). -/
theorem exec_next_faulted {i : Instr} {s t : State} (h : exec i s = .next t) (ht : t.Faulted) :
    ∃ o d, i = .storeBad o d ∧ t = s.raiseFault (.badOffset o d) := by
  obtain hnone | ⟨o, d, rfl, -⟩ := exec_next_fault h
  · exact absurd hnone ht
  · cases exec_next_cases h
    case storeBad hraise => exact ⟨o, d, rfl, hraise⟩

/-! SAMPLE and CALC under the policies (R88, R110, R162). -/

section

variable {p : Params} {c : ChannelState} {s : State}

theorem sampleFrame_zeroPeriod (hp : p.zeroPeriod = .fault) (hv : c.bsValid = false) :
    sampleFrame p c = .error .zeroPeriod := by
  simp [sampleFrame, hp, hv]

/-- Under another policy, or while the rate is valid, a sample never faults, and it writes at most the cursor. -/
theorem sampleFrame_ok (h : p.zeroPeriod ≠ .fault ∨ c.bsValid = true) :
    ∃ v x, sampleFrame p c = .ok (v, c.setBitCursor x) := by
  cases hv : c.bsValid
  case true => exact ⟨_, _, sampleFrame_valid hv p⟩
  case false =>
    refine ⟨silentValue c, c.bitCursor, ?_⟩
    cases hp : p.zeroPeriod
    case fault => simp [hp, hv] at h
    all_goals
      simp only [sampleFrame, hv, hp]
      rfl

/-- CALC's first frame draws the sample that faults, before it mixes anything. -/
theorem calcFrames_zeroPeriod (hp : p.zeroPeriod = .fault) (hv : c.bsValid = false) (o f : ℕ) (b : HostBuffer) :
    ∀ {n : ℕ}, n ≠ 0 → calcFrames p o n f c b = .error .zeroPeriod
  | 0, hn => absurd rfl hn
  | n + 1, _ => by rw [calcFrames, sampleFrame_zeroPeriod hp hv]

/-- Then CALC's loop never faults either, and it writes at most the cursor and the buffer. -/
theorem calcFrames_ok (o : ℕ) : ∀ (n f : ℕ) (c : ChannelState) (b : HostBuffer),
    p.zeroPeriod ≠ .fault ∨ c.bsValid = true → ∃ x b', calcFrames p o n f c b = .ok (c.setBitCursor x, b')
  | 0, _, c, b, _ => ⟨c.bitCursor, b, rfl⟩
  | n + 1, f, c, b, h => by
    obtain ⟨v, y, hy⟩ := sampleFrame_ok h
    obtain ⟨x, b', hx⟩ := calcFrames_ok o n (f + 1) (c.setBitCursor y) (fanOut b o f v o) h
    exact ⟨x, b', by rw [calcFrames, hy]; exact hx⟩

theorem sampleUnder_zeroPeriod (hs : s.Ready) (hp : p.zeroPeriod = .fault) (hv : s.chan.bsValid = false) :
    sampleUnder p s = .next (s.raiseFault .zeroPeriod) := by
  rw [sampleUnder, whenReady_of_ready hs, sampleFrame_zeroPeriod hp hv]

/-- CALC of no frame draws no sample, whatever the parameters (R142). -/
theorem calcUnder_noFrames (hs : s.Ready) (ha : calcArgsOk s.side s.buf = true) (hn : s.side.frames = 0) :
    calcUnder p s = .next (s.respond (.produced 0)) := by
  rw [calcUnder, whenReady_of_ready hs, if_pos ha, hn]
  rfl

theorem calcUnder_zeroPeriod (hs : s.Ready) (hp : p.zeroPeriod = .fault) (hv : s.chan.bsValid = false)
    (ha : calcArgsOk s.side s.buf = true) (hn : s.side.frames ≠ 0) :
    calcUnder p s = .next (s.raiseFault .zeroPeriod) := by
  rw [calcUnder, whenReady_of_ready hs, if_pos ha, calcFrames_zeroPeriod hp hv _ _ _ (BitVec.toNat_ne.mp hn)]

theorem sampleUnder_next_unfaulted {t : State} (h : p.zeroPeriod ≠ .fault ∨ s.chan.bsValid = true)
    (ht : sampleUnder p s = .next t) : t.chan.fault = .none := by
  obtain ⟨hs, hk⟩ := whenReady_next ht
  obtain ⟨v, x, hx⟩ := sampleFrame_ok h
  rw [hx] at hk
  cases hk
  exact hs.2

theorem calcUnder_next_unfaulted {t : State} (h : p.zeroPeriod ≠ .fault ∨ s.chan.bsValid = true)
    (ht : calcUnder p s = .next t) : t.chan.fault = .none := by
  obtain ⟨hs, hk⟩ := whenReady_next ht
  obtain ⟨x, b, hx⟩ := calcFrames_ok s.side.outch.toNat s.side.frames.toNat 0 s.chan s.buf h
  rw [hx] at hk
  split at hk
  · cases hk
    exact hs.2
  · cases hk

end

end Sys2Proof.Machine

namespace Sys2Proof.Proofs

open Sys2Proof Sys2Proof.Machine

/-- Settles O18: the one transaction that faults enters the fault by `raiseFault`, and no step passes the first check
of a faulted block. -/
theorem faultsArePreciseAndTerminal : Obligations.FaultsArePreciseAndTerminal := by
  refine ⟨fun i s t h ht => ?_, fun s hs => ⟨step_of_faulted hs, fun r => step_of_faulted (s := s.issue r) hs⟩⟩
  obtain ⟨o, d, -, rfl⟩ := exec_next_faulted h ht
  rfl

/-- Settles O19: every meaning makes the check for a fault first. -/
theorem noTransactionClearsAFault : Obligations.NoTransactionClearsAFault := fun i _ hs => exec_of_faulted hs i

/-- Settles O26: the fault is raised where a sample is drawn, which a CALC of no frame does not do. -/
theorem zeroPeriodFaultsUnderFaultPolicyOnly : Obligations.ZeroPeriodFaultsUnderFaultPolicyOnly := by
  refine fun s pol d hs => ⟨fun hpol hv => ⟨sampleUnder_zeroPeriod hs hpol hv, fun hout hlen => ?_⟩, fun h t ht => ?_⟩
  · have ha : calcArgsOk s.side s.buf = true := calcArgsOk_iff.mpr ⟨hout, hlen⟩
    split_ifs with hn
    · exact calcUnder_noFrames hs ha hn
    · exact calcUnder_zeroPeriod hs hpol hv ha hn
  · rw [State.Faulted, not_not]
    obtain hsample | hcalc := ht
    · exact sampleUnder_next_unfaulted h hsample
    · exact calcUnder_next_unfaulted h hcalc

/-- Settles O47: a step reads of a request its word, its side operands and its buffer. -/
theorem issuerMakesNoDifference : Obligations.IssuerMakesNoDifference := by
  intro s r rest a hp
  by_cases hf : s.Faulted
  · rw [step_of_faulted hf]
    exact (step_of_faulted (s := { s with pending := { r with agent := a } :: rest }) hf).symm
  · have hn : s.chan.fault = .none := not_not.mp hf
    rw [step_of_pending hn hp]
    exact (step_of_pending (s := { s with pending := { r with agent := a } :: rest }) hn rfl).symm

end Sys2Proof.Proofs
end

section
/-! The reset and hazards family (spec/70_reset_and_hazards.md): nothing but INIT runs before INIT (R183), and the channel
is silent until something is programmed after it (R184). -/

namespace Sys2Proof.Machine

open Sys2Proof

/-! Before INIT (R165, R183). -/

section

variable {s : State} (hf : s.chan.fault = .none) (hi : s.chan.initDone = false)

include hf hi

theorem exec_before_init {i : Instr} (h : i ≠ .init) : exec i s = .refused .preInit := by
  cases i
  case init => exact absurd rfl h
  all_goals exact whenReady_of_not_initDone hf hi _

/-- A reserved word too: the check for INIT comes before the refusal of its encoding. -/
theorem runWord_before_init {w : Word19} (h : decode w ≠ .ok .init) : runWord w s = .refused .preInit := by
  cases hd : decode w with
  | ok i =>
    rw [runWord_of_decode hd]
    exact exec_before_init hf hi fun hinit => h (hinit ▸ hd)
  | error e =>
    rw [runWord_of_error hd]
    exact whenReady_of_not_initDone hf hi _

end

/-! A run of samples in a disabled channel (R119, R184). -/

/-- A run of samples writes at most the cursor. -/
theorem afterFrame_iterate (c : ChannelState) : ∀ k, ∃ x, afterFrame^[k] c = c.setBitCursor x
  | 0 => ⟨c.bitCursor, rfl⟩
  | k + 1 => by
    obtain ⟨x, hx⟩ := afterFrame_iterate c k
    rw [Function.iterate_succ_apply', hx]
    exact ⟨_, rfl⟩

/-- A disabled channel's sample is its manual level, whether the rate is valid or not. -/
theorem frameSample_off {c : ChannelState} (h : c.enabled = false) :
    frameSample c = if c.manualLevel then 4095 else 0 := by
  rw [frameSample, sampleValue_off h, silentValue_eq]
  simp [h]

/-- The state after `k` SAMPLEs in a disabled channel with a low manual level draws 0. -/
theorem frameSample_sampled_iterate {s : State} (hoff : s.chan.enabled = false) (hlow : s.chan.manualLevel = false)
    (k : ℕ) : frameSample (sampled^[k] s).chan = 0 := by
  obtain ⟨x, hx⟩ := afterFrame_iterate s.chan k
  rw [sampled_iterate_chan, hx, frameSample_off (c := s.chan.setBitCursor x) hoff]
  simp [hlow]

theorem exec_init_next_off {s t : State} (h : exec .init s = .next t) :
    t.chan.enabled = false ∧ t.chan.manualLevel = false := by
  cases exec_next_cases h with
  | init _ ht => subst ht; exact ⟨rfl, rfl⟩

end Sys2Proof.Machine

namespace Sys2Proof.Proofs

open Sys2Proof Sys2Proof.Machine

/-- Settles O7: every meaning but INIT's, and the refusal of a reserved word, checks for INIT first. -/
theorem onlyInitRunsBeforeInit : Obligations.OnlyInitRunsBeforeInit := by
  refine fun s hf hi => ⟨fun i h => exec_before_init hf hi h, fun r rest hp h => ?_⟩
  rw [step_of_pending hf hp]
  exact runWord_before_init (s := s.accept r rest) hf hi h

/-- Settles O50: INIT leaves a ready, disabled channel with a low manual level, and SAMPLE writes only the cursor. -/
theorem channelIsSilentAfterInitAlone : Obligations.ChannelIsSilentAfterInitAlone := by
  intro s t h
  have hready : t.Ready := exec_next_leaves_ready h (by simp)
  obtain ⟨hoff, hlow⟩ := exec_init_next_off h
  refine ⟨fun k => sampled^[k] t, rfl, fun k => ?_⟩
  simp only [Function.iterate_succ_apply']
  exact ⟨exec_sample_of_ready (sampled_iterate_ready hready k),
    congrArg Result.sample (frameSample_sampled_iterate hoff hlow k)⟩

end Sys2Proof.Proofs
end
